-- ==== Sys2Proof/Word.lean ====
section
/-!
DEFINITION. The word type. Every memory cell, register, operand byte and opcode byte of CA-core is one unsigned byte
(spec/00_scope.md R5 `XLEN` = 8, R7), and bit 7 is the most significant. Address arithmetic is not done in this type:
it is done in `Int` and tested before it is stored (R7).
-/

namespace Sys2Proof

/-- One byte, 0 to 255 (R7). -/
abbrev Byte := BitVec 8

/-- The number of a general register, 0 to 7 (R5 `NREG` = 8, R11). -/
abbrev RegNum := Fin 8

end Sys2Proof
end

