-- ==== Sys2Proof/Syntax.lean ====
section
/-!
DEFINITION. The closed set of thirteen instructions (spec/00_scope.md R1, spec/30_encoding.md R56), one constructor per
row of spec/opcode_table.json, in the table's order. An operand is the byte that stands in memory: a register operand
byte above 7 is not another instruction but the fault `InvalidRegisterIndex` of this one (R55; opcode_table.json, `src`),
so the byte is kept as it was fetched and the instruction's meaning checks it (R73).
-/

namespace Sys2Proof

/-- The thirteen mnemonics: the domain of the parameter `OPC` (R6). -/
inductive Mnemonic
  | ldi | prn | hlt | mul | add | push | pop | call | ret | cmp | jmp | jeq | jne
  deriving DecidableEq, Repr

/-- An instruction with its operand bytes, in the order of R52. -/
inductive Instr
  /-- R80: load the immediate `value` into register `reg`. -/
  | ldi (reg value : Byte)
  /-- R81: emit the value of register `reg`. -/
  | prn (reg : Byte)
  /-- R85: halt. -/
  | hlt
  /-- R93: multiply `regA` by `regB` into `regA`. -/
  | mul (regA regB : Byte)
  /-- R94: add `regB` to `regA`. -/
  | add (regA regB : Byte)
  /-- R101: push the value of register `reg`. -/
  | push (reg : Byte)
  /-- R102: pop into register `reg`. -/
  | pop (reg : Byte)
  /-- R111: call the subroutine at the address in register `reg`. -/
  | call (reg : Byte)
  /-- R112: return from a subroutine. -/
  | ret
  /-- R95: compare `regA` with `regB`. -/
  | cmp (regA regB : Byte)
  /-- R113: jump to the address in register `reg`. -/
  | jmp (reg : Byte)
  /-- R114: jump if the equal flag is set. -/
  | jeq (reg : Byte)
  /-- R115: jump if the equal flag is clear. -/
  | jne (reg : Byte)
  deriving DecidableEq, Repr

/-- The mnemonic of an instruction. -/
def Instr.mnemonic : Instr → Mnemonic
  | .ldi _ _ => .ldi
  | .prn _ => .prn
  | .hlt => .hlt
  | .mul _ _ => .mul
  | .add _ _ => .add
  | .push _ => .push
  | .pop _ => .pop
  | .call _ => .call
  | .ret => .ret
  | .cmp _ _ => .cmp
  | .jmp _ => .jmp
  | .jeq _ => .jeq
  | .jne _ => .jne

end Sys2Proof
end

