-- ==== Sys2Proof/Config.lean ====
section
/-!
DEFINITION. The open parameters of the machine (spec/00_scope.md R6): the opcode bytes `OPC` and the bit positions of the
three flags. The source fixes none of them. Decoding, the flag computations and `stepWith` take a `Config` as an
argument; the machine the host runs is the one at `Config.default`, which stands in Decode.lean (log entries 1, 2, 9).
-/

namespace Sys2Proof

/-- A value of the open parameters of R6. -/
structure Config where
  /-- `OPC`: the opcode byte of each mnemonic. -/
  opc : Mnemonic → Byte
  /-- Bit index of the equal flag in `FL`. -/
  flE : Fin 8
  /-- Bit index of the greater-than flag in `FL`. -/
  flG : Fin 8
  /-- Bit index of the less-than flag in `FL`. -/
  flL : Fin 8

/-- The constraint R6 puts on `FL_E`, `FL_G`, `FL_L`: three distinct indices. -/
def Config.FlagsDistinct (c : Config) : Prop := c.flE ≠ c.flG ∧ c.flE ≠ c.flL ∧ c.flG ≠ c.flL

/-- The constraints R6 and R57 put on the parameters: `OPC` is injective, the flag indices are distinct. -/
def Config.Valid (c : Config) : Prop := (∀ m n, c.opc m = c.opc n → m = n) ∧ c.FlagsDistinct

end Sys2Proof
end

