-- ==== Sys2Proof/Decode.lean ====
section
/-!
DEFINITION. Decoding and encoding (spec/30_encoding.md). The opcode byte alone selects the instruction and its length
(R53, R56); operand bytes follow at rising addresses (R51, R52) and only those the length calls for are read (R72).
The decoder is total: it answers an instruction, or says by name why there is none. The encoder is written from the
same tables and builds the words of R61.
-/

namespace Sys2Proof

/-- The default of the open parameters (R6, R56; marked `[from general knowledge, not in source]`: PRESUMED, unsafe,
log entries 1 and 2). -/
def Config.default : Config where
  opc
    | .ldi => 0x82#8
    | .prn => 0x47#8
    | .hlt => 0x01#8
    | .mul => 0xA2#8
    | .add => 0xA0#8
    | .push => 0x45#8
    | .pop => 0x46#8
    | .call => 0x50#8
    | .ret => 0x11#8
    | .cmp => 0xA7#8
    | .jmp => 0x54#8
    | .jeq => 0x55#8
    | .jne => 0x56#8
  flE := 0
  flG := 1
  flL := 2

/-- The four formats (R51). -/
inductive Format
  /-- Opcode only. -/
  | f1
  /-- Opcode, register. -/
  | f2r
  /-- Opcode, register, register. -/
  | f3rr
  /-- Opcode, register, immediate. -/
  | f3ri
  deriving DecidableEq, Repr

/-- The format column of R56's table. -/
def Mnemonic.format : Mnemonic → Format
  | .ldi => .f3ri
  | .prn => .f2r
  | .hlt => .f1
  | .mul => .f3rr
  | .add => .f3rr
  | .push => .f2r
  | .pop => .f2r
  | .call => .f2r
  | .ret => .f1
  | .cmp => .f3rr
  | .jmp => .f2r
  | .jeq => .f2r
  | .jne => .f2r

/-- The length column of R51's table, opcode included. -/
def Format.length : Format → Nat
  | .f1 => 1
  | .f2r => 2
  | .f3rr => 3
  | .f3ri => 3

/-- The number of bytes of the instructions of a mnemonic (R53). -/
def Mnemonic.length (m : Mnemonic) : Nat := m.format.length

/-- The number of bytes of an instruction (R50). -/
def Instr.length (i : Instr) : Nat := i.mnemonic.length

/-- The rows of R56's table, in its order. -/
def Mnemonic.all : List Mnemonic :=
  [.ldi, .prn, .hlt, .mul, .add, .push, .pop, .call, .ret, .cmp, .jmp, .jeq, .jne]

/-- The opcode map read backwards: the mnemonic a byte selects, or none when the byte is unknown (R56, R58). -/
def Config.lookup (c : Config) (op : Byte) : Option Mnemonic := Mnemonic.all.find? fun m => c.opc m == op

/-- Why the decoder answers no instruction. -/
inductive DecodeError
  /-- The opcode byte is not one of the thirteen (R58). -/
  | unknownInstruction (op : Byte)
  /-- The byte at this offset from the opcode is needed and there is none (R72). -/
  | missingByte (offset : Nat)
  deriving DecidableEq, Repr

/-- The instruction with one operand byte, read at offset 1. -/
def oneOperand (byteAt : Nat → Option Byte) (mk : Byte → Instr) : Except DecodeError Instr :=
  match byteAt 1 with
  | none => .error (.missingByte 1)
  | some a => .ok (mk a)

/-- The instruction with two operand bytes, read at offset 1 and then at offset 2. -/
def twoOperands (byteAt : Nat → Option Byte) (mk : Byte → Byte → Instr) : Except DecodeError Instr :=
  match byteAt 1 with
  | none => .error (.missingByte 1)
  | some a =>
    match byteAt 2 with
    | none => .error (.missingByte 2)
    | some b => .ok (mk a b)

/-- The operand bytes of each mnemonic, as its format says (R51, R72). -/
def decodeOperands (byteAt : Nat → Option Byte) : Mnemonic → Except DecodeError Instr
  | .ldi => twoOperands byteAt .ldi
  | .prn => oneOperand byteAt .prn
  | .hlt => .ok .hlt
  | .mul => twoOperands byteAt .mul
  | .add => twoOperands byteAt .add
  | .push => oneOperand byteAt .push
  | .pop => oneOperand byteAt .pop
  | .call => oneOperand byteAt .call
  | .ret => .ok .ret
  | .cmp => twoOperands byteAt .cmp
  | .jmp => oneOperand byteAt .jmp
  | .jeq => oneOperand byteAt .jeq
  | .jne => oneOperand byteAt .jne

/-- Decode from any source of bytes, `byteAt k` being the byte at offset `k` from the opcode: the opcode first, then the
operands its length calls for (R53, R71, R72). -/
def decodeFrom (c : Config) (byteAt : Nat → Option Byte) : Except DecodeError Instr :=
  match byteAt 0 with
  | none => .error (.missingByte 0)
  | some op =>
    match c.lookup op with
    | none => .error (.unknownInstruction op)
    | some m => decodeOperands byteAt m

/-- Decode the instruction a list of bytes begins with, and give the bytes after it. -/
def decode (c : Config) (bytes : List Byte) : Except DecodeError (Instr × List Byte) :=
  match decodeFrom c fun k => bytes[k]? with
  | .ok i => .ok (i, bytes.drop i.length)
  | .error e => .error e

/-- The bytes of an instruction, lowest address first (R51, R52, R61). -/
def encode (c : Config) : Instr → List Byte
  | .ldi a b => [c.opc .ldi, a, b]
  | .prn a => [c.opc .prn, a]
  | .hlt => [c.opc .hlt]
  | .mul a b => [c.opc .mul, a, b]
  | .add a b => [c.opc .add, a, b]
  | .push a => [c.opc .push, a]
  | .pop a => [c.opc .pop, a]
  | .call a => [c.opc .call, a]
  | .ret => [c.opc .ret]
  | .cmp a b => [c.opc .cmp, a, b]
  | .jmp a => [c.opc .jmp, a]
  | .jeq a => [c.opc .jeq, a]
  | .jne a => [c.opc .jne, a]

/-- The bytes of a listing: each instruction's bytes in the order written (R61). -/
def assemble (c : Config) (listing : List Instr) : List Byte := listing.flatMap (encode c)

/-- The first three bytes of a word numbered as spec/opcode_table.json numbers it: byte `k` is bits `8k+7..8k`, and the
lowest address comes first. Three bytes are the longest instruction (R50). -/
def bytesOfWord (nbits w : Nat) : List Byte :=
  let v := w % 2 ^ nbits
  [BitVec.ofNat 8 v, BitVec.ofNat 8 (v / 256), BitVec.ofNat 8 (v / 65536)]

/-- The instruction the decoder reads from a word of the opcode table, bits above `nbits` being 0. -/
def decodeTableWord (nbits w : Nat) : Option Instr :=
  match decode Config.default (bytesOfWord nbits w) with
  | .ok (i, _) => some i
  | .error _ => none

end Sys2Proof
end

