-- ==== Sys2Proof/Machine/State.lean ====
section
/-!
DEFINITION. The state of CA-core, all of it (spec/10_state.md R10), as plain data, and its reset value (R23;
spec/70_reset_and_hazards.md R172).
-/

namespace Sys2Proof.Machine

/-- The values of the fault register other than `none` (R19), each with its information value (spec/60_exceptions.md
R141 to R143). -/
inductive FaultValue
  /-- R141: the opcode byte at `pc` is none of the thirteen. -/
  | unknownInstruction (op : Byte)
  /-- R142: a memory address or pc value outside 0 to 255; only -1 and 256 occur in a step (R32). -/
  | outOfRangeAddress (t : Int)
  /-- R143: a register operand byte of 8 to 255. -/
  | invalidRegisterIndex (v : Byte)
  deriving DecidableEq, Repr

/-- Why the model answers no next state. A fault of the SPEC is no constructor here: the step that raises it has a next
state, with `ERR` set (R75, R144). -/
inductive Fault
  /-- Raised by `cycle`, and so by `step`, when asked for a step in status Halted: no step exists there (R70). Safe: the
  machine does nothing more. -/
  | halted
  /-- Raised by `cycle`, and so by `step`, when asked for a step in status Faulted: no step exists there (R70). Safe: the
  machine does nothing more. -/
  | faulted
  deriving DecidableEq, Repr

/-- Why the model has no meaning for an instruction. -/
inductive Refusal
  /-- Would be answered by an arm of `exec` for an instruction with no meaning yet. No arm answers it: all thirteen have
  their meaning. Safe. -/
  | notModelled (mnemonic : String)
  deriving DecidableEq, Repr

/-- Memory `M[0..255]` (R21) as the list of its cells that do not hold 0, addresses strictly rising. A cell that is not
listed holds 0, the reset contents the spec gives (log entry 16). -/
abbrev Memory := List Host.Cell

/-- The architectural state (R10). -/
structure State where
  /-- The general registers; index 7 is the stack pointer (R11, R12). -/
  x : Vector Byte 8
  /-- The program counter, 0 to 255 (R14). -/
  pc : Byte
  /-- The comparison flags (R16). -/
  fl : Byte
  /-- The running flag (R18). -/
  run : Bool
  /-- The fault register (R19). -/
  err : Option FaultValue
  /-- The bytes emitted since reset, oldest first (R20). -/
  out : List Byte
  /-- Memory (R21). -/
  mem : Memory
  deriving DecidableEq, Repr

/-- The machine right after reset, before any image is loaded (R23, R172; R5 `SP_RESET`, `PC_RESET`). -/
def State.reset : State where
  x := #v[0#8, 0#8, 0#8, 0#8, 0#8, 0#8, 0#8, 0xF4#8]
  pc := 0#8
  fl := 0#8
  run := true
  err := none
  out := []
  mem := []

end Sys2Proof.Machine
end

