-- ==== Sys2Proof/Machine/Ops.lean ====
section
/-!
DEFINITION. The primitives of the pseudocode (spec/00_scope.md R8) over the state: registers, the memory address
decoder, the program counter, the stack pointer steps, the output stream, and raising a fault. A primitive that may
raise answers `Except FaultValue`; `commit` turns the result of a whole instruction into an outcome, keeping all its
writes or none (R74, R144).
-/

namespace Sys2Proof.Machine

/-- `x[i]`: the current value of general register `i` (R11, R121). -/
def State.getReg (s : State) (i : RegNum) : Byte := s.x[i]

/-- `x[i] <- v` (R11, R121). No register is hardwired. -/
def State.setReg (s : State) (i : RegNum) (v : Byte) : State := { s with x := s.x.set i v }

/-- The stack pointer is register 7 (R5 `SPREG`, R12). -/
def spReg : RegNum := 7

/-- `MemRead(addr, 1)`: the memory address decoder's read (R8, R31). -/
def memRead (s : State) (addr : Int) : Except FaultValue Byte :=
  if 0 ≤ addr ∧ addr ≤ 255 then .ok (s.mem.read addr.toNat) else .error (.outOfRangeAddress addr)

/-- `MemWrite(addr, 1, v)`: the memory address decoder's write (R8, R31). -/
def memWrite (s : State) (addr : Int) (v : Byte) : Except FaultValue State :=
  if 0 ≤ addr ∧ addr ≤ 255 then .ok { s with mem := s.mem.write addr.toNat v }
  else .error (.outOfRangeAddress addr)

/-- `SetPC(t)`: no wrap-around, a value outside 0 to 255 is never stored (R8, R15). -/
def setPc (s : State) (t : Int) : Except FaultValue State :=
  if t < 0 ∨ 255 < t then .error (.outOfRangeAddress t) else .ok { s with pc := BitVec.ofInt 8 t }

/-- `SetPC(pc + n)`: on to the instruction after one of `n` bytes (R15). -/
def fallThrough (s : State) (n : Nat) : Except FaultValue State := setPc s ((s.pc.toNat : Int) + n)

/-- `pc <- v` for a byte `v`: a taken transfer, whose target is always in range (R110). -/
def jumpTo (s : State) (v : Byte) : State := { s with pc := v }

/-- `x[7] <- x[7] - 1`, in the integers; below 0 it raises and nothing is stored (R13, R101, R111). -/
def decSp (s : State) : Except FaultValue State :=
  let t : Int := ((s.getReg spReg).toNat : Int) - 1
  if t < 0 then .error (.outOfRangeAddress t) else .ok (s.setReg spReg (BitVec.ofInt 8 t))

/-- `x[7] <- x[7] + 1`, in the integers; above 255 it raises and nothing is stored (R13, R102, R112). -/
def incSp (s : State) : Except FaultValue State :=
  let t : Int := ((s.getReg spReg).toNat : Int) + 1
  if 255 < t then .error (.outOfRangeAddress t) else .ok (s.setReg spReg (BitVec.ofInt 8 t))

/-- Store byte `v` at the top of the stack, the cell `x[7]` (R12, R101, R111). -/
def storeTop (s : State) (v : Byte) : Except FaultValue State := memWrite s (s.getReg spReg).toNat v

/-- The byte at the top of the stack, the cell `x[7]` (R12, R102, R112). -/
def loadTop (s : State) : Except FaultValue Byte := memRead s (s.getReg spReg).toNat

/-- `Emit(v)`: append a byte to the output stream (R8, R20). -/
def emit (s : State) (v : Byte) : State := { s with out := s.out ++ [v] }

/-- Taking a fault: the one effect is `ERR <- f` (R144). Registers, memory, `pc`, `FL`, `RUN` and `OUT` keep the values
they had before the step. There is no return from a fault (R147), so no operation undoes this one (log entry 3). -/
def raise (s : State) (f : FaultValue) : State := { s with err := some f }

/-- The end of an instruction that started in `s`: all its writes, or the fault it raised and nothing else (R74, R75). -/
def commit (s : State) (r : Except FaultValue State) : Host.Outcome State Fault Refusal :=
  match r with
  | .ok t => .next t
  | .error f => .next (raise s f)

end Sys2Proof.Machine
end

