-- ==== Sys2Proof/Machine/Cycle.lean ====
section
/-!
DEFINITION. The status of the machine (spec/10_state.md R19) and the fetch-decode-execute cycle (spec/40_cycle.md R70 to
R75), for any configuration and any execute stage. Step.lean applies it to the default configuration and `exec`.
-/

namespace Sys2Proof.Machine

/-- Running, Halted or Faulted (R19). -/
inductive Status
  | running | halted | faulted
  deriving DecidableEq, Repr

/-- The status is a function of `RUN` and `ERR`: Faulted iff `ERR` is not none (R19; log entry 7). -/
def State.status (s : State) : Status :=
  if s.err.isSome then .faulted else if s.run then .running else .halted

/-- The byte the engine fetches at offset `k` from `pc`, or none where that address does not exist (R71, R72). -/
def State.fetchByte (s : State) (k : Nat) : Option Byte :=
  match memRead s ((s.pc.toNat : Int) + k) with
  | .ok v => some v
  | .error _ => none

/-- Fetch and decode (R71, R72): an unknown opcode, then a missing operand byte, raise their faults (R145). -/
def fetch (c : Config) (s : State) : Except FaultValue Instr :=
  match decodeFrom c s.fetchByte with
  | .ok i => .ok i
  | .error (.unknownInstruction op) => .error (.unknownInstruction op)
  | .error (.missingByte k) => .error (.outOfRangeAddress ((s.pc.toNat : Int) + k))

/-- One step (R75): it exists only in status Running (R70); a fault of the fetch stage is raised as any other (R144). -/
def cycle (c : Config) (execute : Instr → State → Host.Outcome State Fault Refusal) (s : State) :
    Host.Outcome State Fault Refusal :=
  match s.status with
  | .halted => .fault .halted
  | .faulted => .fault .faulted
  | .running =>
    match fetch c s with
    | .error f => .next (raise s f)
    | .ok i => execute i s

/-- `s` with a list of bytes stored at rising addresses from `a`, up to the last address 255. -/
def storeBytes (s : State) (a : Nat) : List Byte → State
  | [] => s
  | v :: rest => storeBytes (if a ≤ 255 then { s with mem := s.mem.write a v } else s) (a + 1) rest

end Sys2Proof.Machine
end

