-- ==== Sys2Proof/Machine/Flags.lean ====
section
/-!
DEFINITION. The flags register `FL` and the ALU (spec/10_state.md R16; spec/43_alu.md R90, R91, R95). The ALU is a
combinational function of an operation and two bytes; ADD and MUL give a byte, CMP a new value of the whole of `FL`.
The bit positions are the configuration's.
-/

namespace Sys2Proof.Machine

/-- The byte with only bit `i` set: E, G or L of R95 when `i` is `FL_E`, `FL_G` or `FL_L`. -/
def flagBit (i : Fin 8) : Byte := BitVec.ofNat 8 (2 ^ i.val)

/-- CMP's output: the whole of `FL`, with exactly one of E, G, L set, comparing unsigned bytes (R95). -/
def compareFlags (c : Config) (va vb : Byte) : Byte :=
  if va.toNat = vb.toNat then flagBit c.flE
  else if vb.toNat < va.toNat then flagBit c.flG
  else flagBit c.flL

/-- Bit E of `FL`, the only one any instruction reads (R16, R114, R115). -/
def State.flagE (c : Config) (s : State) : Bool := s.fl.getLsbD c.flE

/-- ADD's output: the sum modulo 256 (R91). -/
def aluAdd (va vb : Byte) : Byte := BitVec.ofNat 8 ((va.toNat + vb.toNat) % 256)

/-- MUL's output: the product modulo 256 (R91). -/
def aluMul (va vb : Byte) : Byte := BitVec.ofNat 8 ((va.toNat * vb.toNat) % 256)

end Sys2Proof.Machine
end

