-- ==== Sys2Proof/Machine/Operands.lean ====
section
/-!
DEFINITION. Register operands (spec/30_encoding.md R55; spec/40_cycle.md R73): `RegIdx` for one operand byte, and the
forms F2R (one register) and F3RR (two registers, `a` checked before `b`). The immediate of F3RI is the byte as it
stands (R54) and needs no operation.
-/

namespace Sys2Proof.Machine

/-- `RegIdx(b)`: the register an operand byte names, or the fault `InvalidRegisterIndex(b)` (R8, R55). It is neither
masked nor wrapped. -/
def regIdx (b : Byte) : Except FaultValue RegNum :=
  if h : b.toNat < 8 then .ok ⟨b.toNat, h⟩ else .error (.invalidRegisterIndex b)

/-- Run `k` on the register of the one register operand (formats F2R and F3RI). -/
def withReg (a : Byte) (k : RegNum → Except FaultValue State) : Except FaultValue State :=
  match regIdx a with
  | .error f => .error f
  | .ok ra => k ra

/-- Run `k` on the registers of the two register operands, `a` checked before `b` (format F3RR; R73, R145). -/
def withRegs (a b : Byte) (k : RegNum → RegNum → Except FaultValue State) : Except FaultValue State :=
  withReg a fun ra => withReg b fun rb => k ra rb

end Sys2Proof.Machine
end

