-- ==== Sys2Proof/Machine/Alu.lean ====
section
/-!
DEFINITION. MUL, ADD and CMP (spec/43_alu.md R93, R94, R95). Both operands are read before any write of the instruction
(R90).
-/

namespace Sys2Proof.Machine

/-- MUL reg_a, reg_b (R93): `x[ra] <- (x[ra] * x[rb]) mod 256; SetPC(pc + 3)`. -/
def execMul (a b : Byte) (s : State) : Host.Outcome State Fault Refusal :=
  commit s (withRegs a b fun ra rb => fallThrough (s.setReg ra (aluMul (s.getReg ra) (s.getReg rb))) 3)

/-- ADD reg_a, reg_b (R94): `x[ra] <- (x[ra] + x[rb]) mod 256; SetPC(pc + 3)`. -/
def execAdd (a b : Byte) (s : State) : Host.Outcome State Fault Refusal :=
  commit s (withRegs a b fun ra rb => fallThrough (s.setReg ra (aluAdd (s.getReg ra) (s.getReg rb))) 3)

/-- CMP reg_a, reg_b (R95) under any flag layout: the whole of `FL` is replaced, then `SetPC(pc + 3)`. -/
def execCmpWith (c : Config) (a b : Byte) (s : State) : Host.Outcome State Fault Refusal :=
  commit s (withRegs a b fun ra rb => fallThrough { s with fl := compareFlags c (s.getReg ra) (s.getReg rb) } 3)

/-- CMP (R95) under the default flag layout. -/
def execCmp (a b : Byte) (s : State) : Host.Outcome State Fault Refusal := execCmpWith Config.default a b s

end Sys2Proof.Machine
end

