-- ==== Sys2Proof/Machine/Control.lean ====
section
/-!
DEFINITION. CALL, RET, JMP, JEQ and JNE (spec/45_control.md R111 to R115). Targets are absolute bytes and always in
range (R110).
-/

namespace Sys2Proof.Machine

/-- CALL's return address `pc + 2`, which must be a byte to be stored (R111). -/
def returnAddress (s : State) : Except FaultValue Byte :=
  let ret : Int := (s.pc.toNat : Int) + 2
  if 255 < ret then .error (.outOfRangeAddress ret) else .ok (BitVec.ofInt 8 ret)

/-- CALL reg (R111): decrement the stack pointer, store the return address, then `pc <- x[ra]`, read after the decrement. -/
def execCall (a : Byte) (s : State) : Host.Outcome State Fault Refusal :=
  commit s (withReg a fun ra => do
    let s1 ← decSp s
    let ret ← returnAddress s1
    let s2 ← storeTop s1 ret
    pure (jumpTo s2 (s2.getReg ra)))

/-- RET (R112): load the target from the top of the stack, increment the stack pointer, `pc <- v`. -/
def execRet (s : State) : Host.Outcome State Fault Refusal :=
  commit s (do
    let v ← loadTop s
    let s1 ← incSp s
    pure (jumpTo s1 v))

/-- JMP reg (R113): `pc <- x[ra]`. -/
def execJmp (a : Byte) (s : State) : Host.Outcome State Fault Refusal :=
  commit s (withReg a fun ra => .ok (jumpTo s (s.getReg ra)))

/-- JEQ reg (R114) under any flag layout: taken when E is set, else `SetPC(pc + 2)`. -/
def execJeqWith (c : Config) (a : Byte) (s : State) : Host.Outcome State Fault Refusal :=
  commit s (withReg a fun ra => if s.flagE c then .ok (jumpTo s (s.getReg ra)) else fallThrough s 2)

/-- JNE reg (R115) under any flag layout: taken when E is clear, else `SetPC(pc + 2)`. -/
def execJneWith (c : Config) (a : Byte) (s : State) : Host.Outcome State Fault Refusal :=
  commit s (withReg a fun ra => if s.flagE c then fallThrough s 2 else .ok (jumpTo s (s.getReg ra)))

/-- JEQ (R114) under the default flag layout. -/
def execJeq (a : Byte) (s : State) : Host.Outcome State Fault Refusal := execJeqWith Config.default a s

/-- JNE (R115) under the default flag layout. -/
def execJne (a : Byte) (s : State) : Host.Outcome State Fault Refusal := execJneWith Config.default a s

end Sys2Proof.Machine
end

