-- ==== Sys2Proof/Machine/DataOutput.lean ====
section
/-!
DEFINITION. LDI and PRN (spec/41_data_and_output.md R80, R81).
-/

namespace Sys2Proof.Machine

/-- LDI reg, value (R80): `x[ra] <- b; SetPC(pc + 3)`. -/
def execLdi (a b : Byte) (s : State) : Host.Outcome State Fault Refusal :=
  commit s (withReg a fun ra => fallThrough (s.setReg ra b) 3)

/-- PRN reg (R81): `Emit(x[ra]); SetPC(pc + 2)`. -/
def execPrn (a : Byte) (s : State) : Host.Outcome State Fault Refusal :=
  commit s (withReg a fun ra => fallThrough (emit s (s.getReg ra)) 2)

end Sys2Proof.Machine
end

