-- ==== Sys2Proof/Machine/Stack.lean ====
section
/-!
DEFINITION. PUSH and POP (spec/44_stack.md R101, R102). The statements of the pseudocode run in the order written, each
seeing the writes of the ones before (R100; log entry 4): it matters when the operand is register 7.
-/

namespace Sys2Proof.Machine

/-- PUSH reg (R101): decrement the stack pointer, store the register (read after the decrement), `SetPC(pc + 2)`. -/
def execPush (a : Byte) (s : State) : Host.Outcome State Fault Refusal :=
  commit s (withReg a fun ra => do
    let s1 ← decSp s
    let s2 ← storeTop s1 (s1.getReg ra)
    fallThrough s2 2)

/-- POP reg (R102): load the register, increment the stack pointer (read after the load), `SetPC(pc + 2)`. -/
def execPop (a : Byte) (s : State) : Host.Outcome State Fault Refusal :=
  commit s (withReg a fun ra => do
    let v ← loadTop s
    let s1 ← incSp (s.setReg ra v)
    fallThrough s1 2)

end Sys2Proof.Machine
end

