-- ==== Sys2Proof/Machine/System.lean ====
section
/-!
DEFINITION. HLT (spec/42_system.md R85).
-/

namespace Sys2Proof.Machine

/-- HLT (R85): `RUN <- false; SetPC(pc + 1)`. At address 255 the second raises and `RUN` stays true. -/
def execHlt (s : State) : Host.Outcome State Fault Refusal :=
  commit s (fallThrough { s with run := false } 1)

end Sys2Proof.Machine
end

