-- ==== Sys2Proof/Machine/Step.lean ====
section
/-!
DEFINITION. The machine's step: the cycle of spec/40_cycle.md R75 at the default configuration with `exec` as its execute
stage; and placing one instruction where the next step fetches.
-/

namespace Sys2Proof.Machine

/-- One step of CA-core (R75). -/
def step (s : State) : Host.Outcome State Fault Refusal := cycle Config.default exec s

/-- `s` with the instruction of a word of spec/opcode_table.json stored at `pc`, `pc + 1` and `pc + 2`, where `step`
fetches: it stands for the Loader, which fills memory before the first step (spec/50_interfaces.md R124; log entry 10).
At `pc` of 254 or 255 the bytes past address 255 have no cell and are dropped. -/
def State.withFetchWord (s : State) (nbits w : Nat) : State := storeBytes s s.pc.toNat (bytesOfWord nbits w)

end Sys2Proof.Machine
end

