-- ==== Sys2Proof/Machine/Interface.lean ====
section
/-!
DEFINITION. What the host sees of the core: the status and the fault (spec/50_interfaces.md R127, with the codes of
spec/60_exceptions.md R143 and the port widths of R129), the rendering of `OUT` (R126), and the listing syntax of
instructions (spec/30_encoding.md R60). No step reads any of this.
-/

namespace Sys2Proof.Machine

/-- The numeric code of the fault register (R143). -/
def errCode : Option FaultValue → BitVec 2
  | none => 0#2
  | some (.unknownInstruction _) => 1#2
  | some (.outOfRangeAddress _) => 2#2
  | some (.invalidRegisterIndex _) => 3#2

/-- The information value of a fault (R143): opcode byte, address, operand byte. -/
def FaultValue.info : FaultValue → Int
  | .unknownInstruction op => op.toNat
  | .outOfRangeAddress t => t
  | .invalidRegisterIndex v => v.toNat

/-- The status port's signals (R127, R129). -/
structure Ports where
  running : Bool
  halted : Bool
  faulted : Bool
  errCode : BitVec 2
  errInfo : BitVec 10
  deriving DecidableEq, Repr

/-- The status port as a function of the state: one-hot status, the fault's code, its information value in 10 bits two's
complement (R129); `errInfo` is 0 while there is no fault (DESIGN CHOICE, log entry 15). -/
def State.ports (s : State) : Ports where
  running := s.status == .running
  halted := s.status == .halted
  faulted := s.status == .faulted
  errCode := errCode s.err
  errInfo :=
    match s.err with
    | none => 0#10
    | some f => BitVec.ofInt 10 f.info

/-- The decimal numeral of a byte, no leading zero, `0` for zero. -/
def decimal (v : Byte) : List Char := Nat.toDigits 10 v.toNat

/-- The host's text for an output stream: one decimal numeral a line (R126; the line break is log entry 12). -/
def renderOut (out : List Byte) : List Char := out.flatMap fun v => decimal v ++ ['\n']

/-- A mnemonic in capitals (R60). -/
def Mnemonic.spelling : Mnemonic → List Char
  | .ldi => "LDI".toList
  | .prn => "PRN".toList
  | .hlt => "HLT".toList
  | .mul => "MUL".toList
  | .add => "ADD".toList
  | .push => "PUSH".toList
  | .pop => "POP".toList
  | .call => "CALL".toList
  | .ret => "RET".toList
  | .cmp => "CMP".toList
  | .jmp => "JMP".toList
  | .jeq => "JEQ".toList
  | .jne => "JNE".toList

/-- A register operand: `R` and the index (R60). -/
def regSpelling (v : Byte) : List Char := 'R' :: decimal v

/-- The listing of an instruction: mnemonic, then operands after one space each, immediates in decimal (R60; of the
spellings R60 allows this is the source's own, log entry 14). -/
def listing (i : Instr) : List Char :=
  Mnemonic.spelling i.mnemonic ++
    match i with
    | .ldi a b => ' ' :: regSpelling a ++ ' ' :: decimal b
    | .mul a b => ' ' :: regSpelling a ++ ' ' :: regSpelling b
    | .add a b => ' ' :: regSpelling a ++ ' ' :: regSpelling b
    | .cmp a b => ' ' :: regSpelling a ++ ' ' :: regSpelling b
    | .prn a => ' ' :: regSpelling a
    | .push a => ' ' :: regSpelling a
    | .pop a => ' ' :: regSpelling a
    | .call a => ' ' :: regSpelling a
    | .jmp a => ' ' :: regSpelling a
    | .jeq a => ' ' :: regSpelling a
    | .jne a => ' ' :: regSpelling a
    | .hlt => []
    | .ret => []

end Sys2Proof.Machine
end

