-- ==== Sys2Proof/Machine/Loader.lean ====
section
/-!
DEFINITION. The Loader's side of the interface (spec/50_interfaces.md R124; spec/70_reset_and_hazards.md R171) and the
program file it reads (spec/30_encoding.md R62). A load-time refusal (spec/60_exceptions.md R150) is `none`: no initial
state, so no run (log entry 17).
-/

namespace Sys2Proof.Machine

/-- Write the bytes of an image at rising addresses from `a`, through the same write as the engine; the first address
outside memory refuses the load (R124). -/
def loadFrom (s : State) (a : Nat) : List Byte → Option State
  | [] => some s
  | v :: rest =>
    match memWrite s a v with
    | .error _ => none
    | .ok t => loadFrom t (a + 1) rest

/-- `Init(img)` (R171): the reset state with the image in memory from address 0; none for an image of more than 256
values or with a value above 255. -/
def State.init (img : List Nat) : Option State :=
  if img.all (fun v => v ≤ 255) then loadFrom State.reset 0 (img.map (BitVec.ofNat 8)) else none

/-- The characters a line may have around its literal: space, tab, carriage return (DESIGN CHOICE, unsafe, log entry 11). -/
def isBlank (ch : Char) : Bool := ch == ' ' || ch == '\t' || ch == '\r'

/-- A line without its comment and without blanks at its ends. -/
def lineBody (line : List Char) : List Char :=
  (((line.takeWhile (· != '#')).dropWhile isBlank).reverse.dropWhile isBlank).reverse

/-- The value of a numeral in base 2, most significant digit first (R62). -/
def binaryValue (digits : List Char) : Nat := digits.foldl (fun acc ch => 2 * acc + (if ch == '1' then 1 else 0)) 0

/-- One line of a program file: `some none` for a blank or comment-only line, `some (some v)` for a literal, none for a
malformed one (R62, R150). -/
def parseLine (line : List Char) : Option (Option Nat) :=
  let body := lineBody line
  if body.isEmpty then some none
  else if body.all (fun ch => ch == '0' || ch == '1') then some (some (binaryValue body))
  else none

/-- The image of a program file: its literals in line order, none if a line is malformed (R62). -/
def parseProgram : List (List Char) → Option (List Nat)
  | [] => some []
  | line :: rest =>
    match parseLine line, parseProgram rest with
    | some none, some img => some img
    | some (some v), some img => some (v :: img)
    | _, _ => none

/-- The initial state of a program file, none when the load is refused (R62, R124, R150, R171). -/
def State.boot (lines : List (List Char)) : Option State :=
  match parseProgram lines with
  | none => none
  | some img => State.init img

end Sys2Proof.Machine
end

