-- ==== Sys2Proof/Machine/Parametric.lean ====
section
/-!
DEFINITION. The machine at any value of the open parameters (spec/00_scope.md R6; spec/30_encoding.md R57). Only CMP, JEQ
and JNE read a parameter in the execute stage (the flag layout); `OPC` is read by the decoder alone. `step` is this
machine at `Config.default` (Laws/Parametric.lean).
-/

namespace Sys2Proof.Machine

/-- The execute stage under configuration `c`. -/
def execWith (c : Config) (i : Instr) (s : State) : Host.Outcome State Fault Refusal :=
  match i with
  | .ldi reg value => execLdi reg value s
  | .prn reg => execPrn reg s
  | .hlt => execHlt s
  | .mul regA regB => execMul regA regB s
  | .add regA regB => execAdd regA regB s
  | .push reg => execPush reg s
  | .pop reg => execPop reg s
  | .call reg => execCall reg s
  | .ret => execRet s
  | .cmp regA regB => execCmpWith c regA regB s
  | .jmp reg => execJmp reg s
  | .jeq reg => execJeqWith c reg s
  | .jne reg => execJneWith c reg s

/-- One step of the machine under configuration `c` (R70, R75). -/
def stepWith (c : Config) (s : State) : Host.Outcome State Fault Refusal := cycle c (execWith c) s

end Sys2Proof.Machine
end

