-- ==== Sys2Proof/WellFormed.lean ====
section
/-!
DEFINITION. Well-formed instructions: every register operand byte names a register, 0 to 7 (spec/30_encoding.md R55, R59).
LDI's second operand is an immediate and is unconstrained (R54). An ill-formed instruction is still an instruction: its
meaning raises `InvalidRegisterIndex` (R73).
-/

namespace Sys2Proof

/-- The register operand bytes of an instruction, `a` before `b`: formats F2R, F3RR and the first operand of F3RI (R51). -/
def Instr.regOperands : Instr → List Byte
  | .ldi a _ => [a]
  | .prn a => [a]
  | .hlt => []
  | .mul a b => [a, b]
  | .add a b => [a, b]
  | .push a => [a]
  | .pop a => [a]
  | .call a => [a]
  | .ret => []
  | .cmp a b => [a, b]
  | .jmp a => [a]
  | .jeq a => [a]
  | .jne a => [a]

/-- Every register operand byte is 0 to 7. -/
def Instr.wellFormed (i : Instr) : Bool := i.regOperands.all fun v => v.toNat ≤ 7

/-- The first register operand byte that names no register: the byte `InvalidRegisterIndex` reports (R55, R73). -/
def Instr.firstBadReg (i : Instr) : Option Byte := i.regOperands.find? fun v => 7 < v.toNat

end Sys2Proof
end

