-- ==== Sys2Proof/Safety.lean ====
section
/-!
DEFINITION. The terms claims are stated in: the bytes at the program counter, raising a fault as an outcome, the invariant
of every reachable state (spec/40_cycle.md R78), runs (R76) and their normal end (R77), and agreement of two states up to
what no program can observe (spec/10_state.md R17).
-/

namespace Sys2Proof.Machine

/-- The byte of memory `k` places after the program counter. -/
def State.codeByte (s : State) (k : Nat) : Byte := s.mem.read (s.pc.toNat + k)

/-- The bytes of memory from the program counter to the last address, 255. -/
def State.window (s : State) : List Byte := (List.range (256 - s.pc.toNat)).map s.codeByte

/-- The bytes `bs` stand in memory from the program counter on, all of them at addresses up to 255. -/
def State.Holds (s : State) (bs : List Byte) : Prop :=
  s.pc.toNat + bs.length ≤ 256 ∧ ∀ k v, bs[k]? = some v → s.codeByte k = v

/-- The outcome of a step from `s` that raises `f`: only `ERR` is written (R144). -/
def faultsWith (s : State) (f : FaultValue) : Host.Outcome State Fault Refusal := .next { s with err := some f }

/-- The outcome of a step from `s` that presents or stores the value 256 as an address. -/
def faultsAt256 (s : State) : Host.Outcome State Fault Refusal := faultsWith s (.outOfRangeAddress 256)

/-- The register a byte of 0 to 7 names; used in statements only, behind the check that the byte is 0 to 7. -/
def regOf (v : Byte) : RegNum := ⟨v.toNat % 8, by omega⟩

/-- From `s` to `t` cell `a`, and no other, is written, with byte `v`; memory stays in canonical form (R35). -/
def Stored (s t : State) (a : Nat) (v : Byte) : Prop :=
  t.mem.wf = true ∧ ∀ b, t.mem.read b = if b = a then v else s.mem.read b

/-- One line of a program file: a byte as eight binary digits, most significant first (spec/30_encoding.md R62). -/
def binaryLine (v : Nat) : List Char := (List.range 8).reverse.map fun k => if v.testBit k then '1' else '0'

/-- The values `FL` can hold: 0, or exactly one of E, G, L (R16). -/
def FlLegal (c : Config) (fl : Byte) : Prop :=
  fl = 0#8 ∨ fl = flagBit c.flE ∨ fl = flagBit c.flG ∨ fl = flagBit c.flL

/-- The values a raised fault can carry (R19): an opcode byte that is none of the thirteen, -1 or 256, a byte above 7. -/
def FaultValue.Legal (c : Config) : FaultValue → Prop
  | .unknownInstruction op => ∀ m, c.opc m ≠ op
  | .outOfRangeAddress t => t = -1 ∨ t = 256
  | .invalidRegisterIndex v => 7 < v.toNat

/-- The invariant of every reachable state (R78; R16, R19 and the canonical form of memory). That `pc`, the registers and
the cells are bytes is in their type. -/
structure State.Inv (c : Config) (s : State) : Prop where
  /-- Memory is in canonical form. -/
  mem_wf : s.mem.wf = true
  /-- `FL` is 0 or exactly one of its three bits (R16). -/
  fl_legal : FlLegal c s.fl
  /-- A fault in `ERR` carries a legal information value (R19). -/
  err_legal : ∀ f, s.err = some f → f.Legal c
  /-- In a Faulted state `RUN` is still true (R19). -/
  faulted_run : s.err ≠ none → s.run = true

/-- `t` is a state of the run that starts in `s` (R76). -/
inductive Reaches (s : State) : State → Prop
  /-- The run starts in `s`. -/
  | start : Reaches s s
  /-- One more step. -/
  | more {t u : State} : Reaches s t → step t = .next u → Reaches s u

/-- The run from `s` ends normally in `t`: it reaches `t`, which is Halted (R77). -/
def EndsNormally (s t : State) : Prop := Reaches s t ∧ t.status = .halted

/-- `s` under configuration `c` and `t` under `d` differ at most in `FL`, and agree on whether E is set (R17). -/
def SameButFlags (c d : Config) (s t : State) : Prop :=
  { s with fl := 0#8 } = { t with fl := 0#8 } ∧ s.flagE c = t.flagE d

/-- Two outcomes are the same up to flags no program can observe: two next states so related, or the same stop. -/
def SameOutcomeButFlags (c d : Config) : Host.Outcome State Fault Refusal → Host.Outcome State Fault Refusal → Prop
  | .next s, .next t => SameButFlags c d s t
  | .fault f, .fault g => f = g
  | .refused r, .refused q => r = q
  | _, _ => False

end Sys2Proof.Machine
end

