-- ==== Sys2Proof/Certificates/Slice0/Obligations.lean ====
section
/-!
DEFINITION. The statements for the provers. Each docstring names the rule of spec/ or the section it rests on; a clause
that rests on a decision of spec/92_eei_decisions.md or on a log entry says so. Opcode bytes and flag positions appear
only by name (`Config.default.opc`, `flagBit`), but for `WordsOfTheSpecDecode`.
-/

open Sys2Proof Sys2Proof.Machine

/-! ### Encoding -/

/-- Decoding the bytes of an instruction, whatever follows them, gives that instruction and what follows, for every
instruction with every operand byte, under every valid assignment of opcode bytes (spec/30_encoding.md R51, R52, R57). -/
def Obligations.DecodeOfEncodeGivesTheInstruction : Prop :=
  ∀ c : Config, c.Valid → ∀ (i : Instr) (rest : List Byte), decode c (encode c i ++ rest) = .ok (i, rest)

/-- The other direction: bytes that decode to an instruction are its bytes (each encoding has one meaning; R51, R52). -/
def Obligations.DecodedBytesAreTheEncoding : Prop :=
  ∀ (c : Config) (bytes rest : List Byte) (i : Instr), decode c bytes = .ok (i, rest) → bytes = encode c i ++ rest

/-- Under every valid assignment exactly 243 of the 256 byte values select no instruction (R58; that `OPC` is injective
is R57). -/
def Obligations.ExactlyThirteenOpcodeBytesAreKnown : Prop :=
  ∀ c : Config, c.Valid → ((List.range 256).filter fun n => c.lookup (BitVec.ofNat 8 n) = none).length = 243

/-- Words written out from R56's table and the examples of the instruction rules, the first byte lowest; the opcode
values are the default of R6, which the spec marks as general knowledge (log entry 1). -/
def Obligations.WordsOfTheSpecDecode : Prop :=
  decodeTableWord 24 0b00001000_00000000_10000010 = some (.ldi 0#8 8#8) ∧
  decodeTableWord 24 0b00000001_00000000_10100010 = some (.mul 0#8 1#8) ∧
  decodeTableWord 24 0b00000010_00000000_10100111 = some (.cmp 0#8 2#8) ∧
  decodeTableWord 16 0b00000001_01010000 = some (.call 1#8) ∧
  decodeTableWord 16 0b00000011_01010110 = some (.jne 3#8) ∧
  decodeTableWord 16 0b00000111_01000110 = some (.pop 7#8) ∧
  decodeTableWord 8 0b00010001 = some .ret ∧
  decodeTableWord 8 0b00000000 = none

/-! ### The step -/

/-- When the bytes at the program counter decode to an instruction, the step of a Running machine is `exec` of that
instruction, with nothing around it (spec/40_cycle.md R71, R74, R75). -/
def Obligations.StepRunsTheDecodedInstruction : Prop :=
  ∀ (s : State) (i : Instr) (rest : List Byte),
    s.status = .running → decode Config.default s.window = .ok (i, rest) → step s = exec i s

/-- A machine instantiated with another valid configuration runs the same meanings, rule for rule: with the bytes of an
instruction under `c` at the program counter, the step under `c` is that instruction's meaning, and the meaning depends
on the flag positions alone (spec/30_encoding.md R57; that `stepWith` stands beside `step` is the model's choice, log entry
9). -/
def Obligations.EveryConfigurationRunsTheSameMeanings : Prop :=
  (∀ (c : Config) (s : State) (i : Instr),
    c.Valid → s.status = .running → s.Holds (encode c i) → stepWith c s = execWith c i s) ∧
  (∀ (c d : Config) (s : State) (i : Instr),
    c.flE = d.flE → c.flG = d.flG → c.flL = d.flL → execWith c i s = execWith d i s)

/-- A step exists if and only if `RUN` is true and `ERR` is none; in status Halted or Faulted there is none, so nothing
ever changes again (R70). That a step asked for there answers `Fault.halted` or `Fault.faulted` is the model's choice, log
entry 6; that a state with `RUN` false and a fault in `ERR` counts as Faulted is read from R19, log entry 7. -/
def Obligations.StepExistsExactlyWhileRunning : Prop :=
  ∀ s : State,
    ((s.run = true ∧ s.err = none) ↔ ∃ t, step s = .next t) ∧
    (s.status = .running ∨ s.status = .halted ∨ s.status = .faulted) ∧
    (s.status = .halted → step s = .fault .halted) ∧
    (s.status = .faulted → step s = .fault .faulted)

/-- Fetching an opcode byte that is none of the thirteen raises `UnknownInstruction` of that byte and nothing else
happens; no other step raises it (spec/60_exceptions.md R141). That nothing else happens is the spec's decision D5, log
entry 3. -/
def Obligations.UnknownOpcodeByteFaults : Prop :=
  ∀ s : State, s.status = .running →
    ((∀ m, Config.default.opc m ≠ s.codeByte 0) → step s = faultsWith s (.unknownInstruction (s.codeByte 0))) ∧
    (∀ t op, step s = .next t → t.err = some (.unknownInstruction op) →
      op = s.codeByte 0 ∧ ∀ m, Config.default.opc m ≠ s.codeByte 0)

/-- An instruction whose operand bytes do not all lie below address 256 raises `OutOfRangeAddress(256)`
(spec/40_cycle.md section 1; the fetch of only the needed bytes is the spec's decision D9, what the fault leaves D5; log
entries 3 and 5). -/
def Obligations.OperandFetchPastTheTopFaults : Prop :=
  ∀ (s : State) (m : Mnemonic), s.status = .running → s.codeByte 0 = Config.default.opc m →
    256 < s.pc.toNat + m.length → step s = faultsAt256 s

/-- A register operand byte above 7 raises `InvalidRegisterIndex` of the first such byte, whatever else the instruction
would do; an instruction with good register operands never raises it (spec/30_encoding.md section 2; the fault is the
spec's decision D10, what it leaves D5; log entries 3 and 5). The clauses are on `exec` in every state, so also at a `pc` of
254 or 255 where no step could fetch the instruction whole and R145 gives `OutOfRangeAddress(256)` first
(`OperandFetchPastTheTopFaults`): that `exec` has a meaning there is the model's choice, log entry 8. -/
def Obligations.BadRegisterOperandFaults : Prop :=
  (∀ (i : Instr) (s : State) (v : Byte), i.firstBadReg = some v → exec i s = faultsWith s (.invalidRegisterIndex v)) ∧
  (∀ (i : Instr) (s t : State) (v : Byte), i.wellFormed = true → s.err = none → exec i s = .next t →
    t.err ≠ some (.invalidRegisterIndex v))

/-- A step that raises a fault writes `ERR` and nothing else: registers, memory, `pc`, `FL`, `RUN`, `OUT` keep their
values (spec/60_exceptions.md section 3; precise faults are the spec's decision D5, log entry 3). -/
def Obligations.FaultWritesErrOnly : Prop :=
  ∀ s t : State, step s = .next t → t.err ≠ none → t = { s with err := t.err }

/-- No instruction reads or clears `ERR`, and no transition leaves Halted or Faulted (R147): an instruction does the
same whatever `ERR` holds before, which stays unless the instruction raises a fault itself. That `exec` has a meaning in a
Faulted state, where no step exists, is the model's choice, log entry 8. -/
def Obligations.NoReturnFromAFault : Prop :=
  (∀ s t : State, s.status = .halted ∨ s.status = .faulted → Reaches s t → t = s) ∧
  (∀ (i : Instr) (s t : State) (e : Option FaultValue), s.err = none → exec i s = .next t →
    exec i { s with err := e } = .next { t with err := t.err.or e })

/-! ### The instructions -/

/-- LDI (R80): where it completes, with everything it leaves unchanged; and its whole step, faults in their order. The fault
clauses are the spec's decisions D5 (what a fault leaves), D7 (their order), D8 (fall-through to 256), D9 (operand fetch)
and D10 (register index); log entries 3 and 5. -/
def Obligations.LdiLoadsTheImmediate : Prop :=
  (∀ (a b : Byte) (s : State), a.toNat ≤ 7 → s.pc.toNat ≤ 252 →
    exec (.ldi a b) s = .next { s with x := s.x.set (regOf a) b, pc := BitVec.ofNat 8 (s.pc.toNat + 3) }) ∧
  (∀ s : State, s.status = .running → s.codeByte 0 = Config.default.opc .ldi →
    step s =
      if 254 ≤ s.pc.toNat then faultsAt256 s
      else if 7 < (s.codeByte 1).toNat then faultsWith s (.invalidRegisterIndex (s.codeByte 1))
      else if s.pc.toNat = 253 then faultsAt256 s
      else .next { s with
        x := s.x.set (regOf (s.codeByte 1)) (s.codeByte 2), pc := BitVec.ofNat 8 (s.pc.toNat + 3) })

/-- PRN (R81): one byte, the register's value, is appended to `OUT`. That a PRN at address 254 emits nothing is the
spec's reference behaviour (U3, decision D8); the other fault clauses are its decisions D5, D7, D9 and D10; log entries 3
and 5. -/
def Obligations.PrnEmitsTheRegister : Prop :=
  (∀ (a : Byte) (s : State), a.toNat ≤ 7 → s.pc.toNat ≤ 253 →
    exec (.prn a) s = .next { s with out := s.out ++ [s.x[regOf a]], pc := BitVec.ofNat 8 (s.pc.toNat + 2) }) ∧
  (∀ s : State, s.status = .running → s.codeByte 0 = Config.default.opc .prn →
    step s =
      if s.pc.toNat = 255 then faultsAt256 s
      else if 7 < (s.codeByte 1).toNat then faultsWith s (.invalidRegisterIndex (s.codeByte 1))
      else if s.pc.toNat = 254 then faultsAt256 s
      else .next { s with
        out := s.out ++ [s.x[regOf (s.codeByte 1)]], pc := BitVec.ofNat 8 (s.pc.toNat + 2) })

/-- HLT (R85): clears `RUN` and advances `pc` by 1; at address 255 it faults and `RUN` stays true
(the spec's decisions D8 and D5; log entries 3 and 5). -/
def Obligations.HltClearsRunAndAdvances : Prop :=
  (∀ s : State, s.pc.toNat ≤ 254 →
    exec .hlt s = .next { s with run := false, pc := BitVec.ofNat 8 (s.pc.toNat + 1) }) ∧
  (∀ s : State, s.status = .running → s.codeByte 0 = Config.default.opc .hlt →
    step s =
      if s.pc.toNat = 255 then faultsAt256 s
      else .next { s with run := false, pc := BitVec.ofNat 8 (s.pc.toNat + 1) })

/-- MUL (R93): the product modulo 256 into the first register, both operands read before the write. The fault
clauses are the spec's decisions D5 (what a fault leaves), D7 (their order), D8 (fall-through to 256), D9 (operand fetch)
and D10 (register index); log entries 3 and 5. -/
def Obligations.MulWritesTheProductModulo256 : Prop :=
  (∀ (a b : Byte) (s : State), a.toNat ≤ 7 → b.toNat ≤ 7 → s.pc.toNat ≤ 252 →
    exec (.mul a b) s = .next { s with
      x := s.x.set (regOf a) (BitVec.ofNat 8 (s.x[regOf a].toNat * s.x[regOf b].toNat % 256)),
      pc := BitVec.ofNat 8 (s.pc.toNat + 3) }) ∧
  (∀ s : State, s.status = .running → s.codeByte 0 = Config.default.opc .mul →
    step s =
      if 254 ≤ s.pc.toNat then faultsAt256 s
      else if 7 < (s.codeByte 1).toNat then faultsWith s (.invalidRegisterIndex (s.codeByte 1))
      else if 7 < (s.codeByte 2).toNat then faultsWith s (.invalidRegisterIndex (s.codeByte 2))
      else if s.pc.toNat = 253 then faultsAt256 s
      else .next { s with
        x := s.x.set (regOf (s.codeByte 1))
          (BitVec.ofNat 8 (s.x[regOf (s.codeByte 1)].toNat * s.x[regOf (s.codeByte 2)].toNat % 256)),
        pc := BitVec.ofNat 8 (s.pc.toNat + 3) })

/-- ADD (R94): the sum modulo 256 into the first register, both operands read before the write. The fault
clauses are the spec's decisions D5 (what a fault leaves), D7 (their order), D8 (fall-through to 256), D9 (operand fetch)
and D10 (register index); log entries 3 and 5. -/
def Obligations.AddWritesTheSumModulo256 : Prop :=
  (∀ (a b : Byte) (s : State), a.toNat ≤ 7 → b.toNat ≤ 7 → s.pc.toNat ≤ 252 →
    exec (.add a b) s = .next { s with
      x := s.x.set (regOf a) (BitVec.ofNat 8 ((s.x[regOf a].toNat + s.x[regOf b].toNat) % 256)),
      pc := BitVec.ofNat 8 (s.pc.toNat + 3) }) ∧
  (∀ s : State, s.status = .running → s.codeByte 0 = Config.default.opc .add →
    step s =
      if 254 ≤ s.pc.toNat then faultsAt256 s
      else if 7 < (s.codeByte 1).toNat then faultsWith s (.invalidRegisterIndex (s.codeByte 1))
      else if 7 < (s.codeByte 2).toNat then faultsWith s (.invalidRegisterIndex (s.codeByte 2))
      else if s.pc.toNat = 253 then faultsAt256 s
      else .next { s with
        x := s.x.set (regOf (s.codeByte 1))
          (BitVec.ofNat 8 ((s.x[regOf (s.codeByte 1)].toNat + s.x[regOf (s.codeByte 2)].toNat) % 256)),
        pc := BitVec.ofNat 8 (s.pc.toNat + 3) })

/-- CMP (R95): the whole of `FL` becomes E, G or L, comparing unsigned bytes (that G means the first operand is the
greater is the spec's decision D3). The fault
clauses are the spec's decisions D5 (what a fault leaves), D7 (their order), D8 (fall-through to 256), D9 (operand fetch)
and D10 (register index); log entries 3 and 5. -/
def Obligations.CmpSetsExactlyOneFlag : Prop :=
  (∀ (a b : Byte) (s : State), a.toNat ≤ 7 → b.toNat ≤ 7 → s.pc.toNat ≤ 252 →
    exec (.cmp a b) s = .next { s with
      fl :=
        if s.x[regOf a].toNat = s.x[regOf b].toNat then flagBit Config.default.flE
        else if s.x[regOf a].toNat > s.x[regOf b].toNat then flagBit Config.default.flG
        else flagBit Config.default.flL,
      pc := BitVec.ofNat 8 (s.pc.toNat + 3) }) ∧
  (∀ s : State, s.status = .running → s.codeByte 0 = Config.default.opc .cmp →
    step s =
      if 254 ≤ s.pc.toNat then faultsAt256 s
      else if 7 < (s.codeByte 1).toNat then faultsWith s (.invalidRegisterIndex (s.codeByte 1))
      else if 7 < (s.codeByte 2).toNat then faultsWith s (.invalidRegisterIndex (s.codeByte 2))
      else if s.pc.toNat = 253 then faultsAt256 s
      else .next { s with
        fl :=
          if s.x[regOf (s.codeByte 1)].toNat = s.x[regOf (s.codeByte 2)].toNat then flagBit Config.default.flE
          else if s.x[regOf (s.codeByte 1)].toNat > s.x[regOf (s.codeByte 2)].toNat then flagBit Config.default.flG
          else flagBit Config.default.flL,
        pc := BitVec.ofNat 8 (s.pc.toNat + 3) })

/-- PUSH (R100, R101): register 7 goes down by 1 and the cell it then names gets the register's value, read after the
decrement; no other cell changes. The fault at `x[7] = 0` is the spec's decision D11, the order of effects D12, the other
fault clauses D5 and D7 to D10 (log entries 3, 4 and 5). The premise on memory is log entry 16's form, part of
the invariant (`InvariantKeptByEveryStep`). -/
def Obligations.PushStoresBelowTheStackPointer : Prop :=
  (∀ (a : Byte) (s : State), s.mem.wf = true → a.toNat ≤ 7 → 1 ≤ s.x[7].toNat → s.pc.toNat ≤ 253 →
    ∃ t, exec (.push a) s = .next t ∧
      t = { s with
        x := s.x.set 7 (BitVec.ofNat 8 (s.x[7].toNat - 1)), mem := t.mem, pc := BitVec.ofNat 8 (s.pc.toNat + 2) } ∧
      Stored s t (s.x[7].toNat - 1) (if a = 7#8 then BitVec.ofNat 8 (s.x[7].toNat - 1) else s.x[regOf a])) ∧
  (∀ s : State, s.mem.wf = true → s.status = .running → s.codeByte 0 = Config.default.opc .push →
    if s.pc.toNat = 255 then step s = faultsAt256 s
    else if 7 < (s.codeByte 1).toNat then step s = faultsWith s (.invalidRegisterIndex (s.codeByte 1))
    else if s.x[7].toNat = 0 then step s = faultsWith s (.outOfRangeAddress (-1))
    else if s.pc.toNat = 254 then step s = faultsAt256 s
    else ∃ t, step s = .next t ∧
      t = { s with
        x := s.x.set 7 (BitVec.ofNat 8 (s.x[7].toNat - 1)), mem := t.mem, pc := BitVec.ofNat 8 (s.pc.toNat + 2) } ∧
      Stored s t (s.x[7].toNat - 1)
        (if s.codeByte 1 = 7#8 then BitVec.ofNat 8 (s.x[7].toNat - 1) else s.x[regOf (s.codeByte 1)]))

/-- POP (R100, R102): the register gets the byte at the stack pointer, and register 7 goes up by 1, read after the load;
memory is unchanged. The fault at 255 is the spec's decision D11, the order of effects D12, the other fault clauses D5 and
D7 to D10 (log entries 3, 4 and 5). -/
def Obligations.PopLoadsFromTheStackPointer : Prop :=
  (∀ (a : Byte) (s : State), a.toNat ≤ 7 → s.pc.toNat ≤ 253 →
    (if a = 7#8 then s.mem.read s.x[7].toNat else s.x[7]).toNat ≤ 254 →
    exec (.pop a) s = .next { s with
      x := (s.x.set (regOf a) (s.mem.read s.x[7].toNat)).set 7
        (BitVec.ofNat 8 ((if a = 7#8 then s.mem.read s.x[7].toNat else s.x[7]).toNat + 1)),
      pc := BitVec.ofNat 8 (s.pc.toNat + 2) }) ∧
  (∀ s : State, s.status = .running → s.codeByte 0 = Config.default.opc .pop →
    step s =
      if s.pc.toNat = 255 then faultsAt256 s
      else if 7 < (s.codeByte 1).toNat then faultsWith s (.invalidRegisterIndex (s.codeByte 1))
      else if (if s.codeByte 1 = 7#8 then s.mem.read s.x[7].toNat else s.x[7]).toNat = 255 then faultsAt256 s
      else if s.pc.toNat = 254 then faultsAt256 s
      else .next { s with
        x := (s.x.set (regOf (s.codeByte 1)) (s.mem.read s.x[7].toNat)).set 7
          (BitVec.ofNat 8 ((if s.codeByte 1 = 7#8 then s.mem.read s.x[7].toNat else s.x[7]).toNat + 1)),
        pc := BitVec.ofNat 8 (s.pc.toNat + 2) })

/-- CALL (R111): register 7 goes down by 1, the cell it then names gets the return address `pc + 2`, and `pc` gets the
register's value, read after the decrement; no other cell changes. The faults at `x[7] = 0` and at `pc = 254` are the
spec's decisions D11 and D13, the order of effects D12, the other fault clauses D5, D7, D9 and D10 (log entries 3, 4 and
5). The premise on memory is log entry 16's form, part of the invariant. -/
def Obligations.CallSavesTheReturnAddress : Prop :=
  (∀ (a : Byte) (s : State), s.mem.wf = true → a.toNat ≤ 7 → 1 ≤ s.x[7].toNat → s.pc.toNat ≤ 253 →
    ∃ t, exec (.call a) s = .next t ∧
      t = { s with
        x := s.x.set 7 (BitVec.ofNat 8 (s.x[7].toNat - 1)), mem := t.mem,
        pc := if a = 7#8 then BitVec.ofNat 8 (s.x[7].toNat - 1) else s.x[regOf a] } ∧
      Stored s t (s.x[7].toNat - 1) (BitVec.ofNat 8 (s.pc.toNat + 2))) ∧
  (∀ s : State, s.mem.wf = true → s.status = .running → s.codeByte 0 = Config.default.opc .call →
    if s.pc.toNat = 255 then step s = faultsAt256 s
    else if 7 < (s.codeByte 1).toNat then step s = faultsWith s (.invalidRegisterIndex (s.codeByte 1))
    else if s.x[7].toNat = 0 then step s = faultsWith s (.outOfRangeAddress (-1))
    else if s.pc.toNat = 254 then step s = faultsAt256 s
    else ∃ t, step s = .next t ∧
      t = { s with
        x := s.x.set 7 (BitVec.ofNat 8 (s.x[7].toNat - 1)), mem := t.mem,
        pc := if s.codeByte 1 = 7#8 then BitVec.ofNat 8 (s.x[7].toNat - 1) else s.x[regOf (s.codeByte 1)] } ∧
      Stored s t (s.x[7].toNat - 1) (BitVec.ofNat 8 (s.pc.toNat + 2)))

/-- RET (R112): `pc` gets the byte at the stack pointer and register 7 goes up by 1; legal at every address, 255 too. The
fault at `x[7] = 255` is the spec's decision D11, what it leaves D5 (log entries 3 and 5). -/
def Obligations.RetReturnsToTheSavedAddress : Prop :=
  (∀ s : State, s.x[7].toNat ≤ 254 →
    exec .ret s = .next { s with
      x := s.x.set 7 (BitVec.ofNat 8 (s.x[7].toNat + 1)), pc := s.mem.read s.x[7].toNat }) ∧
  (∀ s : State, s.status = .running → s.codeByte 0 = Config.default.opc .ret →
    step s =
      if s.x[7].toNat = 255 then faultsAt256 s
      else .next { s with
        x := s.x.set 7 (BitVec.ofNat 8 (s.x[7].toNat + 1)), pc := s.mem.read s.x[7].toNat })

/-- JMP (R113): `pc` gets the register's value; legal at address 254. The fault clauses are
the spec's decisions D5 (what a fault leaves), D7 (their order), D9 (operand fetch) and D10 (register index), log entries 3
and 5; that `exec` alone completes at `pc = 255`, where no step could fetch the operand, is the model's, log entry 8. -/
def Obligations.JmpGoesToTheRegister : Prop :=
  (∀ (a : Byte) (s : State), a.toNat ≤ 7 → exec (.jmp a) s = .next { s with pc := s.x[regOf a] }) ∧
  (∀ s : State, s.status = .running → s.codeByte 0 = Config.default.opc .jmp →
    step s =
      if s.pc.toNat = 255 then faultsAt256 s
      else if 7 < (s.codeByte 1).toNat then faultsWith s (.invalidRegisterIndex (s.codeByte 1))
      else .next { s with pc := s.x[regOf (s.codeByte 1)] })

/-- JEQ (R114): taken if and only if bit E of `FL` is set; a bad register operand faults taken or not. The
fault clauses are the spec's decisions D5 (what a fault leaves), D7 (their order), D8 (fall-through to 256), D9 (operand
fetch) and D10 (register index), log entries 3 and 5; that `exec` alone takes the jump at `pc = 255`, where no step could
fetch the operand, is the model's, log entry 8. -/
def Obligations.JeqJumpsExactlyWhenEqual : Prop :=
  (∀ (a : Byte) (s : State), a.toNat ≤ 7 → s.fl.getLsbD Config.default.flE = true →
    exec (.jeq a) s = .next { s with pc := s.x[regOf a] }) ∧
  (∀ (a : Byte) (s : State), a.toNat ≤ 7 → s.fl.getLsbD Config.default.flE = false → s.pc.toNat ≤ 253 →
    exec (.jeq a) s = .next { s with pc := BitVec.ofNat 8 (s.pc.toNat + 2) }) ∧
  (∀ s : State, s.status = .running → s.codeByte 0 = Config.default.opc .jeq →
    step s =
      if s.pc.toNat = 255 then faultsAt256 s
      else if 7 < (s.codeByte 1).toNat then faultsWith s (.invalidRegisterIndex (s.codeByte 1))
      else if s.fl.getLsbD Config.default.flE = true then .next { s with pc := s.x[regOf (s.codeByte 1)] }
      else if s.pc.toNat = 254 then faultsAt256 s
      else .next { s with pc := BitVec.ofNat 8 (s.pc.toNat + 2) })

/-- JNE (R115): taken if and only if bit E of `FL` is clear; a bad register operand faults taken or not. The
fault clauses are the spec's decisions D5 (what a fault leaves), D7 (their order), D8 (fall-through to 256), D9 (operand
fetch) and D10 (register index), log entries 3 and 5; that `exec` alone takes the jump at `pc = 255`, where no step could
fetch the operand, is the model's, log entry 8. -/
def Obligations.JneJumpsExactlyWhenNotEqual : Prop :=
  (∀ (a : Byte) (s : State), a.toNat ≤ 7 → s.fl.getLsbD Config.default.flE = false →
    exec (.jne a) s = .next { s with pc := s.x[regOf a] }) ∧
  (∀ (a : Byte) (s : State), a.toNat ≤ 7 → s.fl.getLsbD Config.default.flE = true → s.pc.toNat ≤ 253 →
    exec (.jne a) s = .next { s with pc := BitVec.ofNat 8 (s.pc.toNat + 2) }) ∧
  (∀ s : State, s.status = .running → s.codeByte 0 = Config.default.opc .jne →
    step s =
      if s.pc.toNat = 255 then faultsAt256 s
      else if 7 < (s.codeByte 1).toNat then faultsWith s (.invalidRegisterIndex (s.codeByte 1))
      else if s.fl.getLsbD Config.default.flE = false then .next { s with pc := s.x[regOf (s.codeByte 1)] }
      else if s.pc.toNat = 254 then faultsAt256 s
      else .next { s with pc := BitVec.ofNat 8 (s.pc.toNat + 2) })

/-! ### Instructions together -/

/-- After a CMP the conditional jumps are decided by equality of the two registers, and exactly one of the two is taken
(spec/45_control.md R114, R115; spec/95_test_vectors.md T4). -/
def Obligations.CompareThenJumpDecidesEquality : Prop :=
  ∀ (a b r : Byte) (s t : State), a.toNat ≤ 7 → b.toNat ≤ 7 → r.toNat ≤ 7 → s.pc.toNat ≤ 250 →
    exec (.cmp a b) s = .next t →
    (if s.x[regOf a] = s.x[regOf b] then
      exec (.jeq r) t = .next { t with pc := s.x[regOf r] } ∧
      exec (.jne r) t = .next { t with pc := BitVec.ofNat 8 (s.pc.toNat + 5) }
    else
      exec (.jne r) t = .next { t with pc := s.x[regOf r] } ∧
      exec (.jeq r) t = .next { t with pc := BitVec.ofNat 8 (s.pc.toNat + 5) })

/-- A PUSH and the POP of the same register that matches it restore the register and the stack pointer, for every
register, 7 included, whatever ran in between, if the POP starts with the stack pointer and the stored byte as the PUSH
left them (spec/44_stack.md section 2; for register 7 it rests on the order of effects, decision D12, log entry 4). The
premise on memory is log entry 16's form, part of the invariant. -/
def Obligations.PushThenPopRestores : Prop :=
  ∀ (a : Byte) (s u : State), s.mem.wf = true → a.toNat ≤ 7 → 1 ≤ s.x[7].toNat → s.pc.toNat ≤ 253 → u.pc.toNat ≤ 253 →
    ∃ t, exec (.push a) s = .next t ∧
      (u.x[7] = t.x[7] → u.mem.read t.x[7].toNat = t.mem.read t.x[7].toNat →
        ∃ v, exec (.pop a) u = .next v ∧ v.x[regOf a] = s.x[regOf a] ∧ v.x[7] = s.x[7])

/-- A CALL and the RET that matches it: `pc` is the address after the CALL and the stack pointer is as before it, if the
subroutine leaves the stack pointer and the stored byte as the CALL left them (spec/45_control.md, the property quoted
under RET; T3; for CALL R7 it rests on the order of effects, decision D12, log entry 4). The premise on memory is log entry
16's form, part of the invariant. -/
def Obligations.CallThenRetReturns : Prop :=
  ∀ (a : Byte) (s u : State), s.mem.wf = true → a.toNat ≤ 7 → 1 ≤ s.x[7].toNat → s.pc.toNat ≤ 253 →
    ∃ t, exec (.call a) s = .next t ∧
      (u.x[7] = t.x[7] → u.mem.read t.x[7].toNat = t.mem.read t.x[7].toNat →
        ∃ v, exec .ret u = .next v ∧ v.pc.toNat = s.pc.toNat + 2 ∧ v.x[7] = s.x[7])

/-- A byte pushed onto the address of the next instruction is what the very next step decodes, and if it is the opcode
of HLT that step halts (spec/20_memory.md section 7, instruction-fetch coherence). The premise on memory is log entry 16's
form, part of the invariant. -/
def Obligations.PushedByteIsFetchedByTheNextStep : Prop :=
  ∀ s : State, s.mem.wf = true → s.status = .running → s.codeByte 0 = Config.default.opc .push →
    (s.codeByte 1).toNat < 7 → s.pc.toNat ≤ 252 → s.x[7].toNat = s.pc.toNat + 3 →
    ∃ t, step s = .next t ∧ t.codeByte 0 = s.x[regOf (s.codeByte 1)] ∧
      (s.x[regOf (s.codeByte 1)] = Config.default.opc .hlt →
        step t = .next { t with run := false, pc := BitVec.ofNat 8 (s.pc.toNat + 3) })

/-! ### Which step writes which state -/

/-- `RUN` is true at reset, is cleared by a completed HLT and by nothing else, a fault included, and is true whenever a
step exists; Halted is reached only so (spec/10_state.md R18). -/
def Obligations.OnlyHltClearsRun : Prop :=
  State.reset.run = true ∧
  ∀ s t : State, step s = .next t →
    s.run = true ∧
    (t.run = false → s.codeByte 0 = Config.default.opc .hlt ∧ t.err = none) ∧
    (s.codeByte 0 = Config.default.opc .hlt → t.err = none → t.run = false) ∧
    (t.err ≠ none → t.run = true)

/-- `FL` is 0 at reset and only a completed CMP changes it, which leaves exactly one flag set (spec/10_state.md
section 4). That a faulting CMP leaves it is the spec's decision D5, log entry 3. -/
def Obligations.OnlyCmpWritesFlags : Prop :=
  State.reset.fl = 0#8 ∧
  ∀ s t : State, step s = .next t →
    t.fl = s.fl ∨
    (s.codeByte 0 = Config.default.opc .cmp ∧ t.err = none ∧
      (t.fl = flagBit Config.default.flE ∨ t.fl = flagBit Config.default.flG ∨ t.fl = flagBit Config.default.flL))

/-- `OUT` is empty at reset; a completed PRN appends the byte of its register, nothing else writes it; and no instruction
reads it: with any other history in `OUT` the step is the same (R20). The clause that a step which raises a fault, a PRN at
address 254 among them, appends nothing is no plain rule: the spec calls it implementation-defined (U3, R81) and gives it as
its reference behaviour (decisions D5, D8; log entry 3). -/
def Obligations.OutIsWrittenByPrnAndNeverRead : Prop :=
  State.reset.out = [] ∧
  ∀ (s t : State) (o : List Byte), step s = .next t →
    ∃ e, t.out = s.out ++ e ∧
      (e = [] ∨ (s.codeByte 0 = Config.default.opc .prn ∧ t.err = none ∧ e = [s.x[regOf (s.codeByte 1)]])) ∧
      (s.codeByte 0 = Config.default.opc .prn → t.err = none → e = [s.x[regOf (s.codeByte 1)]]) ∧
      step { s with out := o } = .next { t with out := o ++ e }

/-- Memory is written by a completed PUSH or CALL only, in the one cell just below the stack pointer (spec/10_state.md
R10, "written by"; spec/20_memory.md section 2). That a faulting step leaves memory is the spec's decision D5, log entry 3;
the premise on memory is log entry 16's form, part of the invariant. -/
def Obligations.OnlyPushAndCallWriteMemory : Prop :=
  ∀ (s t : State) (a : Nat), s.mem.wf = true → step s = .next t → t.mem.read a ≠ s.mem.read a →
    (s.codeByte 0 = Config.default.opc .push ∨ s.codeByte 0 = Config.default.opc .call) ∧ t.err = none ∧
    a + 1 = s.x[7].toNat

/-- A general register is written by LDI, MUL, ADD or POP as their first operand, and register 7 besides by PUSH, POP,
CALL and RET, and by nothing else (spec/10_state.md R10, "written by"). That a faulting step leaves the registers is the
spec's decision D5, log entry 3. -/
def Obligations.RegistersAreWrittenOnlyByTheirWriters : Prop :=
  ∀ (s t : State) (r : RegNum), step s = .next t → t.x[r] ≠ s.x[r] →
    t.err = none ∧
    (((s.codeByte 0 = Config.default.opc .ldi ∨ s.codeByte 0 = Config.default.opc .mul ∨
        s.codeByte 0 = Config.default.opc .add ∨ s.codeByte 0 = Config.default.opc .pop) ∧
        (s.codeByte 1).toNat = r) ∨
      (r = 7 ∧ (s.codeByte 0 = Config.default.opc .push ∨ s.codeByte 0 = Config.default.opc .pop ∨
        s.codeByte 0 = Config.default.opc .call ∨ s.codeByte 0 = Config.default.opc .ret)))

/-! ### Invariants and isolation -/

/-- Every step keeps the invariant: memory in canonical form (the model's, log entry 16), `FL` 0 or exactly one flag, `ERR`
none or a fault with a legal information value (an address only -1 or 256), `RUN` true in a Faulted state (spec/40_cycle.md
section 2, invariants; spec/10_state.md section 5; spec/20_memory.md section 1). -/
def Obligations.InvariantKeptByEveryStep : Prop :=
  ∀ s t : State, s.Inv Config.default → step s = .next t → t.Inv Config.default

/-- The invariant, with the model's form of memory (log entry 16), holds at reset. -/
def Obligations.InvariantAtReset : Prop := State.reset.Inv Config.default

/-- The invariant holds in every state of every run of every image that loads (spec/40_cycle.md section 2; the form
of memory is the model's, log entry 16). -/
def Obligations.InvariantInEveryRun : Prop :=
  ∀ (img : List Nat) (s t : State), State.init img = some s → Reaches s t → t.Inv Config.default

/-- A run that starts Running and ends normally ends in a completed HLT: the last step ran the HLT at its program counter,
which cleared `RUN` and left `pc` at the address after the HLT byte and everything else as it was (spec/40_cycle.md R77). -/
def Obligations.NormalEndIsACompletedHlt : Prop :=
  ∀ s t : State, s.status = .running → EndsNormally s t →
    ∃ u, Reaches s u ∧ u.codeByte 0 = Config.default.opc .hlt ∧ step u = .next t ∧ t.pc.toNat = u.pc.toNat + 1 ∧
      t = { u with run := false, pc := t.pc }

/-- No program can observe where the flags lie, nor G and L, nor the other bits of `FL`: two machines with the same
opcode bytes and any two layouts of distinct flags, in states that differ in `FL` only and agree on E, step to states
that again differ in `FL` only and agree on E, or stop alike (spec/10_state.md section 4; that `stepWith` stands beside `step` is the
model's choice, log entry 9). -/
def Obligations.OnlyTheEqualFlagIsObservable : Prop :=
  ∀ (c d : Config) (s t : State), c.opc = d.opc → c.FlagsDistinct → d.FlagsDistinct → SameButFlags c d s t →
    SameOutcomeButFlags c d (stepWith c s) (stepWith d t)

/-! ### Memory, reset, loader, interface -/

/-- The memory address decoder: in 0 to 255 a read returns the cell's byte and a write replaces that cell's byte and
nothing else (R31, R35); any other address raises `OutOfRangeAddress` of it, with no wrap, clamp or alias (R31). The
canonical form of memory, assumed before and shown after the write, is the model's choice, log entry 16, and part of the
invariant. -/
def Obligations.AddressDecoderChecksTheRange : Prop :=
  ∀ (s : State) (a : Int) (v : Byte), s.mem.wf = true →
    if 0 ≤ a ∧ a ≤ 255 then
      memRead s a = .ok (s.mem.read a.toNat) ∧
      ∃ t, memWrite s a v = .ok t ∧ t = { s with mem := t.mem } ∧ Stored s t a.toNat v ∧ memRead t a = .ok v
    else
      memRead s a = .error (.outOfRangeAddress a) ∧ memWrite s a v = .error (.outOfRangeAddress a)

/-- Equal contents are equal memories: the canonical form is unique (the model's representation of R21's 256 cells, log
entry 16). -/
def Obligations.EqualContentsAreEqualMemories : Prop :=
  ∀ m n : Memory, m.wf = true → n.wf = true → (∀ a, a < 256 → m.read a = n.read a) → m = n

/-- The initial state of an image of at most 256 values of 0 to 255: the image from address 0, zeros after it, every
other component at its reset value (spec/70_reset_and_hazards.md R171). That any other image has none is the spec's decision
D17 (R124; log entry 5), that the answer is `none` the model's (log entry 17), as is the canonical form of memory (log entry
16); that `ERR` and `OUT` start none and empty is D18. -/
def Obligations.InitialStateOfAnImage : Prop :=
  (∀ img : List Nat, img.length ≤ 256 → (∀ v ∈ img, v ≤ 255) →
    ∃ s, State.init img = some s ∧ s.mem.wf = true ∧
      (∀ a : Nat, s.mem.read a = BitVec.ofNat 8 (img.getD a 0)) ∧
      (∀ r : RegNum, s.x[r] = if r = 7 then 0xF4#8 else 0#8) ∧
      s.pc = 0#8 ∧ s.fl = 0#8 ∧ s.run = true ∧ s.err = none ∧ s.out = []) ∧
  (∀ img : List Nat, (256 < img.length ∨ ∃ v ∈ img, 255 < v) → State.init img = none)

/-- A program file with one eight-digit binary literal a line, with or without a comment after it, loads as the image of
its values (spec/30_encoding.md section 5; that the space before the comment is ignored is in R62's example and log entry
11). -/
def Obligations.ProgramFileLoadsItsLiterals : Prop :=
  ∀ (img : List Nat) (comment : List Char), (∀ v ∈ img, v ≤ 255) →
    State.boot (img.map binaryLine) = State.init img ∧
    State.boot (img.map fun v => binaryLine v ++ ' ' :: '#' :: comment) = State.init img

/-- The status port: exactly one of running, halted, faulted; the fault's code of R143; and its information value, which
the ten bits hold exactly for every legal fault (spec/50_interfaces.md section 2; the codes are the spec's decision D6,
the value shown without a fault is the model's, log entry 15). -/
def Obligations.PortsShowTheStatusAndTheFault : Prop :=
  ∀ s : State,
    (s.ports.running = true ↔ s.run = true ∧ s.err = none) ∧
    (s.ports.halted = true ↔ s.run = false ∧ s.err = none) ∧
    (s.ports.faulted = true ↔ s.err ≠ none) ∧
    (s.ports.errCode = 0#2 ↔ s.err = none) ∧
    (∀ f, s.err = some f → f.Legal Config.default → s.ports.errInfo.toInt = f.info) ∧
    (∀ op, s.err = some (.unknownInstruction op) → s.ports.errCode = 1#2 ∧ s.ports.errInfo.toInt = op.toNat) ∧
    (∀ t, s.err = some (.outOfRangeAddress t) → s.ports.errCode = 2#2) ∧
    (∀ v, s.err = some (.invalidRegisterIndex v) → s.ports.errCode = 3#2 ∧ s.ports.errInfo.toInt = v.toNat)

/-! ### Two rules stated by themselves -/

/-- A step exists if and only if `RUN` is true and `ERR` is none; where none does, no component of the state ever changes
again; and the state after a step is a function of the state before it (R70). How the model answers where no step exists is
not said here but in `StepExistsExactlyWhileRunning`. -/
def Obligations.NoComponentChangesOutsideRunning : Prop :=
  ∀ s : State,
    ((s.run = true ∧ s.err = none) ↔ ∃ t, step s = .next t) ∧
    (¬(s.run = true ∧ s.err = none) → ∀ t, Reaches s t → t = s) ∧
    (∀ t u, step s = .next t → step s = .next u → t = u)

/-- The first operand of an instruction is the byte at `pc + 1`, the second the byte at `pc + 2`, in the order the table
lists them (R52): where all three bytes exist, the step of a Running machine executes the instruction of its opcode byte
with these operands. An instruction at 254 or 255 is the matter of `OperandFetchPastTheTopFaults` and of the statements
about one instruction. -/
def Obligations.OperandsStandInTheOrderListed : Prop :=
  ∀ s : State, s.status = .running → s.pc.toNat ≤ 253 →
    (s.codeByte 0 = Config.default.opc .ldi → step s = exec (.ldi (s.codeByte 1) (s.codeByte 2)) s) ∧
    (s.codeByte 0 = Config.default.opc .prn → step s = exec (.prn (s.codeByte 1)) s) ∧
    (s.codeByte 0 = Config.default.opc .mul → step s = exec (.mul (s.codeByte 1) (s.codeByte 2)) s) ∧
    (s.codeByte 0 = Config.default.opc .add → step s = exec (.add (s.codeByte 1) (s.codeByte 2)) s) ∧
    (s.codeByte 0 = Config.default.opc .push → step s = exec (.push (s.codeByte 1)) s) ∧
    (s.codeByte 0 = Config.default.opc .pop → step s = exec (.pop (s.codeByte 1)) s) ∧
    (s.codeByte 0 = Config.default.opc .call → step s = exec (.call (s.codeByte 1)) s) ∧
    (s.codeByte 0 = Config.default.opc .cmp → step s = exec (.cmp (s.codeByte 1) (s.codeByte 2)) s) ∧
    (s.codeByte 0 = Config.default.opc .jmp → step s = exec (.jmp (s.codeByte 1)) s) ∧
    (s.codeByte 0 = Config.default.opc .jeq → step s = exec (.jeq (s.codeByte 1)) s) ∧
    (s.codeByte 0 = Config.default.opc .jne → step s = exec (.jne (s.codeByte 1)) s)
end

