-- ==== Sys2Proof/Laws/Decode.lean ====
section
/-!
SUPPORT. The opcode map read backwards, and what the decoder reads: one lemma for each function of Decode.lean that later
proofs cite.
-/

namespace Sys2Proof

/-- The default configuration meets the constraints of spec/00_scope.md R6. -/
theorem Config.default_valid : Config.default.Valid := by
  refine ⟨?_, by unfold Config.FlagsDistinct; decide⟩
  intro m n
  cases m <;> cases n <;> decide

theorem Mnemonic.mem_all (m : Mnemonic) : m ∈ Mnemonic.all := by cases m <;> decide

/-- A known opcode byte is looked up to its mnemonic: this is where `OPC` must be injective (R57). -/
theorem Config.lookup_opc {c : Config} (h : ∀ m n, c.opc m = c.opc n → m = n) (m : Mnemonic) :
    c.lookup (c.opc m) = some m := by
  unfold Config.lookup
  cases hf : Mnemonic.all.find? (fun n => c.opc n == c.opc m) with
  | none => simpa using List.find?_eq_none.mp hf m (Mnemonic.mem_all m)
  | some n => rw [h n m (by simpa using List.find?_some hf)]

/-- What is looked up has the byte as its opcode. -/
theorem Config.opc_of_lookup {c : Config} {op : Byte} {m : Mnemonic} (h : c.lookup op = some m) : c.opc m = op := by
  simpa using List.find?_some h

/-- A byte is unknown exactly when it is no opcode (R58). -/
theorem Config.lookup_eq_none {c : Config} {op : Byte} : c.lookup op = none ↔ ∀ m, c.opc m ≠ op := by
  simp [Config.lookup, List.find?_eq_none, Mnemonic.mem_all]

/-- Everything one operand can decode to. -/
theorem oneOperand_eq (byteAt : Nat → Option Byte) (mk : Byte → Instr) :
    (∃ a, byteAt 1 = some a ∧ oneOperand byteAt mk = .ok (mk a)) ∨
    (byteAt 1 = none ∧ oneOperand byteAt mk = .error (.missingByte 1)) := by
  unfold oneOperand
  cases byteAt 1 <;> simp

/-- Everything two operands can decode to. -/
theorem twoOperands_eq (byteAt : Nat → Option Byte) (mk : Byte → Byte → Instr) :
    (∃ a b, byteAt 1 = some a ∧ byteAt 2 = some b ∧ twoOperands byteAt mk = .ok (mk a b)) ∨
    (byteAt 1 = none ∧ twoOperands byteAt mk = .error (.missingByte 1)) ∨
    (∃ a, byteAt 1 = some a ∧ byteAt 2 = none ∧ twoOperands byteAt mk = .error (.missingByte 2)) := by
  unfold twoOperands
  cases byteAt 1 <;> cases byteAt 2 <;> simp

/-- The bytes of an instruction are as many as its length says, and the first is its opcode (R50, R53). -/
theorem encode_shape (c : Config) (i : Instr) :
    (encode c i).length = i.length ∧ (encode c i)[0]? = some (c.opc i.mnemonic) := by
  cases i <;> exact ⟨rfl, rfl⟩

/-- A decoder that reads the opcode and the operands of an instruction's bytes answers that instruction. -/
theorem decodeFrom_of_bytes {c : Config} (h : ∀ m n, c.opc m = c.opc n → m = n) (i : Instr) (byteAt : Nat → Option Byte)
    (hb : ∀ k v, (encode c i)[k]? = some v → byteAt k = some v) : decodeFrom c byteAt = .ok i := by
  have h0 := hb 0 _ (encode_shape c i).2
  rw [decodeFrom, h0]
  simp only [Config.lookup_opc h]
  cases i <;>
    simp only [Instr.mnemonic, decodeOperands, oneOperand, twoOperands] <;>
    first
      | rfl
      | (rw [hb 1 _ rfl, hb 2 _ rfl])
      | (rw [hb 1 _ rfl])

end Sys2Proof
end

