-- ==== Sys2Proof/Laws/Memory.lean ====
section
/-!
SUPPORT. Read after write, the canonical form and its uniqueness.
-/

namespace Sys2Proof.Machine

/-- A cell reads what was last written to it, every other cell as before (spec/20_memory.md R35). -/
theorem Memory.read_write {lo : Nat} {m : Memory} (h : Memory.wfFrom lo m = true) (a b : Nat) (v : Byte) :
    Memory.read (Memory.write m a v) b = if a = b then v else Memory.read m b := by
  induction m generalizing lo with
  | nil => by_cases hv : v = 0#8 <;> simp [Memory.write, Memory.read, hv]
  | cons c rest ih =>
    obtain ⟨k, w⟩ := c
    simp only [Memory.wfFrom, Bool.and_eq_true, decide_eq_true_eq] at h
    have low : ∀ d, d ≤ k → Memory.read rest d = 0#8 := by
      have := h.2
      clear ih h
      induction rest generalizing k with
      | nil => intro _ _; rfl
      | cons c2 rest2 ih2 =>
        obtain ⟨k2, w2⟩ := c2
        simp only [Memory.wfFrom, Bool.and_eq_true, decide_eq_true_eq] at this
        intro d hd
        rw [Memory.read, if_neg (by omega)]
        exact ih2 _ this.2 d (by omega)
    have := ih h.2
    simp only [Memory.write]
    split
    · split
      · rename_i hlt hv
        simp only [Memory.read]
        by_cases hab : a = b
        · subst hab; simp [hv, low a (by omega), show k ≠ a by omega]
        · simp [hab]
      · simp [Memory.read]
    · split
      · rename_i hge heq
        subst heq
        split
        · rename_i hv
          by_cases hab : a = b
          · subst hab; simp [hv, low a (by omega)]
          · simp [Memory.read, hab]
        · by_cases hab : a = b <;> simp [Memory.read, hab]
      · rename_i hge hne
        simp only [Memory.read, this]
        by_cases hkb : k = b
        · simp [hkb, show ¬ a = b by omega]
        · simp [hkb]

/-- A write keeps the canonical form. -/
theorem Memory.wfFrom_write {lo : Nat} {m : Memory} (h : Memory.wfFrom lo m = true) {a : Nat} (hlo : lo ≤ a)
    (ha : a < 256) (v : Byte) : Memory.wfFrom lo (Memory.write m a v) = true := by
  induction m generalizing lo with
  | nil => by_cases hv : v = 0#8 <;> simp [Memory.write, Memory.wfFrom, hv, hlo, ha]
  | cons c rest ih =>
    obtain ⟨k, w⟩ := c
    have h' := h
    simp only [Memory.wfFrom, Bool.and_eq_true, decide_eq_true_eq] at h
    have weaken : ∀ l l', l ≤ l' → Memory.wfFrom l' rest = true → Memory.wfFrom l rest = true := by
      intro l l' hl hw
      cases rest with
      | nil => rfl
      | cons c2 rest2 =>
        simp only [Memory.wfFrom, Bool.and_eq_true, decide_eq_true_eq] at hw ⊢
        exact ⟨⟨⟨by omega, hw.1.1.2⟩, hw.1.2⟩, hw.2⟩
    simp only [Memory.write]
    split
    · split
      · exact h'
      · rename_i hlt hv
        simp only [Memory.wfFrom, Bool.and_eq_true, decide_eq_true_eq]
        exact ⟨⟨⟨hlo, ha⟩, hv⟩, ⟨⟨⟨by omega, h.1.1.2⟩, h.1.2⟩, h.2⟩⟩
    · split
      · rename_i hge heq
        subst heq
        split
        · exact weaken _ _ (by omega) h.2
        · rename_i hv
          simp only [Memory.wfFrom, Bool.and_eq_true, decide_eq_true_eq]
          exact ⟨⟨⟨hlo, ha⟩, hv⟩, h.2⟩
      · simp only [Memory.wfFrom, Bool.and_eq_true, decide_eq_true_eq]
        exact ⟨h.1, ih h.2 (by omega)⟩

/-- A write in range keeps a memory well formed: the one memory operation that changes memory. -/
theorem Memory.wf_write {m : Memory} (h : m.wf = true) {a : Nat} (ha : a < 256) (v : Byte) :
    (Memory.write m a v).wf = true := Memory.wfFrom_write h (Nat.zero_le a) ha v

/-- The reset memory is well formed. -/
theorem Memory.wf_reset : State.reset.mem.wf = true := rfl

/-- The empty memory reads 0 everywhere (spec/10_state.md R21). -/
@[simp] theorem Memory.read_nil (a : Nat) : Memory.read [] a = 0#8 := rfl

end Sys2Proof.Machine
end

