-- ==== Sys2Proof/Laws/State.lean ====
section
/-!
SUPPORT. One lemma per field per update of the state, so that no proof unfolds a record update.
-/

namespace Sys2Proof.Machine

variable (s : State) (i j : RegNum) (v : Byte) (f : FaultValue)

@[simp] theorem setReg_pc : (s.setReg i v).pc = s.pc := rfl
@[simp] theorem setReg_fl : (s.setReg i v).fl = s.fl := rfl
@[simp] theorem setReg_run : (s.setReg i v).run = s.run := rfl
@[simp] theorem setReg_err : (s.setReg i v).err = s.err := rfl
@[simp] theorem setReg_out : (s.setReg i v).out = s.out := rfl
@[simp] theorem setReg_mem : (s.setReg i v).mem = s.mem := rfl

@[simp] theorem jumpTo_x : (jumpTo s v).x = s.x := rfl
@[simp] theorem jumpTo_pc : (jumpTo s v).pc = v := rfl
@[simp] theorem jumpTo_fl : (jumpTo s v).fl = s.fl := rfl
@[simp] theorem jumpTo_run : (jumpTo s v).run = s.run := rfl
@[simp] theorem jumpTo_err : (jumpTo s v).err = s.err := rfl
@[simp] theorem jumpTo_out : (jumpTo s v).out = s.out := rfl
@[simp] theorem jumpTo_mem : (jumpTo s v).mem = s.mem := rfl

@[simp] theorem emit_x : (emit s v).x = s.x := rfl
@[simp] theorem emit_pc : (emit s v).pc = s.pc := rfl
@[simp] theorem emit_fl : (emit s v).fl = s.fl := rfl
@[simp] theorem emit_run : (emit s v).run = s.run := rfl
@[simp] theorem emit_err : (emit s v).err = s.err := rfl
@[simp] theorem emit_out : (emit s v).out = s.out ++ [v] := rfl
@[simp] theorem emit_mem : (emit s v).mem = s.mem := rfl

@[simp] theorem raise_x : (raise s f).x = s.x := rfl
@[simp] theorem raise_pc : (raise s f).pc = s.pc := rfl
@[simp] theorem raise_fl : (raise s f).fl = s.fl := rfl
@[simp] theorem raise_run : (raise s f).run = s.run := rfl
@[simp] theorem raise_err : (raise s f).err = some f := rfl
@[simp] theorem raise_out : (raise s f).out = s.out := rfl
@[simp] theorem raise_mem : (raise s f).mem = s.mem := rfl

/-- A register reads what was last written to it; writing one register leaves the others alone. -/
theorem getReg_setReg : (s.setReg i v).getReg j = if i = j then v else s.getReg j := by
  simp [State.setReg, State.getReg, Vector.getElem_set, Fin.ext_iff]

@[simp] theorem getReg_setReg_same : (s.setReg i v).getReg i = v := by simp [getReg_setReg]

theorem getReg_setReg_other (h : i ≠ j) : (s.setReg i v).getReg j = s.getReg j := by simp [getReg_setReg, h]

/-- Only the registers matter to `getReg`. -/
theorem getReg_congr {s t : State} (h : s.x = t.x) (i : RegNum) : s.getReg i = t.getReg i := by
  simp [State.getReg, h]

end Sys2Proof.Machine
end

