-- ==== Sys2Proof/Laws/Ops.lean ====
section
/-!
SUPPORT. One lemma for each shared operation that says everything it can do; proofs cite these and unfold none of the
operations.
-/

namespace Sys2Proof.Machine

/-- `MemRead` in range (spec/20_memory.md R31). -/
theorem memRead_of_le (s : State) {a : Int} (h0 : 0 ≤ a) (h1 : a ≤ 255) : memRead s a = .ok (s.mem.read a.toNat) := by
  simp [memRead, h0, h1]

/-- `MemRead` out of range (R31). -/
theorem memRead_of_gt (s : State) {a : Int} (h : a < 0 ∨ 255 < a) : memRead s a = .error (.outOfRangeAddress a) := by
  rw [memRead, if_neg (by omega)]

/-- `MemWrite` in range (R31). -/
theorem memWrite_of_le (s : State) {a : Int} (h0 : 0 ≤ a) (h1 : a ≤ 255) (v : Byte) :
    memWrite s a v = .ok { s with mem := s.mem.write a.toNat v } := by
  simp [memWrite, h0, h1]

/-- `MemWrite` out of range (R31). -/
theorem memWrite_of_gt (s : State) {a : Int} (h : a < 0 ∨ 255 < a) (v : Byte) :
    memWrite s a v = .error (.outOfRangeAddress a) := by
  rw [memWrite, if_neg (by omega)]

/-- The top of the stack is a byte address, so reading it cannot fault (spec/45_control.md R112). -/
theorem loadTop_eq (s : State) : loadTop s = .ok (s.mem.read (s.getReg spReg).toNat) := by
  rw [loadTop, memRead_of_le s (by omega) (by omega)]
  simp

/-- Storing at the top of the stack cannot fault. -/
theorem storeTop_eq (s : State) (v : Byte) :
    storeTop s v = .ok { s with mem := s.mem.write (s.getReg spReg).toNat v } := by
  rw [storeTop, memWrite_of_le s (by omega) (by omega)]
  simp

/-- Falling through completes when the successor is an address (spec/10_state.md R15). -/
theorem fallThrough_of_le (s : State) {n : Nat} (h : s.pc.toNat + n ≤ 255) :
    fallThrough s n = .ok { s with pc := BitVec.ofNat 8 (s.pc.toNat + n) } := by
  rw [fallThrough, setPc, if_neg (by omega)]
  congr

/-- Falling through past address 255 raises (R15). -/
theorem fallThrough_of_gt (s : State) {n : Nat} (h : 255 < s.pc.toNat + n) :
    fallThrough s n = .error (.outOfRangeAddress ((s.pc.toNat + n : Nat) : Int)) := by
  rw [fallThrough, setPc, if_pos (by omega)]
  congr

/-- The stack pointer's decrement above 0 (R13). -/
theorem decSp_of_pos (s : State) (h : 1 ≤ (s.getReg spReg).toNat) :
    decSp s = .ok (s.setReg spReg (BitVec.ofNat 8 ((s.getReg spReg).toNat - 1))) := by
  rw [decSp, if_neg (by omega)]
  congr
  rw [show ((s.getReg spReg).toNat : Int) - 1 = (((s.getReg spReg).toNat - 1 : Nat) : Int) by omega, BitVec.ofInt_natCast]

/-- The stack pointer's decrement at 0 raises (R13). -/
theorem decSp_of_zero (s : State) (h : (s.getReg spReg).toNat = 0) : decSp s = .error (.outOfRangeAddress (-1)) := by
  simp [decSp, h]

/-- The stack pointer's increment below 255 (R13). -/
theorem incSp_of_lt (s : State) (h : (s.getReg spReg).toNat ≤ 254) :
    incSp s = .ok (s.setReg spReg (BitVec.ofNat 8 ((s.getReg spReg).toNat + 1))) := by
  rw [incSp, if_neg (by omega)]
  congr

/-- The stack pointer's increment at 255 raises (R13). -/
theorem incSp_of_max (s : State) (h : (s.getReg spReg).toNat = 255) : incSp s = .error (.outOfRangeAddress 256) := by
  simp [incSp, h]

/-- CALL's return address when it is a byte (R111). -/
theorem returnAddress_of_le (s : State) (h : s.pc.toNat ≤ 253) :
    returnAddress s = .ok (BitVec.ofNat 8 (s.pc.toNat + 2)) := by
  rw [returnAddress, if_neg (by omega)]
  congr

/-- CALL's return address when it is no byte (R111). -/
theorem returnAddress_of_gt (s : State) (h : 253 < s.pc.toNat) :
    returnAddress s = .error (.outOfRangeAddress ((s.pc.toNat + 2 : Nat) : Int)) := by
  rw [returnAddress, if_pos (by omega)]
  congr

/-- A register operand byte of 0 to 7 names its register (spec/30_encoding.md R55). -/
theorem regIdx_of_le {b : Byte} (h : b.toNat ≤ 7) : regIdx b = .ok ⟨b.toNat, by omega⟩ := by
  rw [regIdx, dif_pos (by omega)]

/-- A register operand byte above 7 raises (R55). -/
theorem regIdx_of_gt {b : Byte} (h : 7 < b.toNat) : regIdx b = .error (.invalidRegisterIndex b) := by
  rw [regIdx, dif_neg (by omega)]

/-- One good register operand. -/
theorem withReg_of_le {a : Byte} (h : a.toNat ≤ 7) (k : RegNum → Except FaultValue State) :
    withReg a k = k ⟨a.toNat, by omega⟩ := by
  simp [withReg, regIdx_of_le h]

/-- One bad register operand. -/
theorem withReg_of_gt {a : Byte} (h : 7 < a.toNat) (k : RegNum → Except FaultValue State) :
    withReg a k = .error (.invalidRegisterIndex a) := by
  simp [withReg, regIdx_of_gt h]

/-- An instruction that completes. -/
@[simp] theorem commit_ok (s t : State) : commit s (.ok t) = .next t := rfl

/-- An instruction that raises: `ERR` is written and nothing else (spec/60_exceptions.md R144). -/
@[simp] theorem commit_error (s : State) (f : FaultValue) : commit s (.error f) = .next (raise s f) := rfl

/-- Everything a committed instruction can answer: the state it built, or the raised fault. -/
theorem commit_cases {s t : State} {r : Except FaultValue State} (h : commit s r = .next t) :
    r = .ok t ∨ ∃ f, r = .error f ∧ t = raise s f := by
  cases r with
  | ok u => exact .inl (by simpa using h)
  | error f => exact .inr ⟨f, rfl, by simpa using h.symm⟩

end Sys2Proof.Machine
end

