-- ==== Sys2Proof/Laws/Cycle.lean ====
section
/-!
SUPPORT. Everything a step can do: the status, the bytes the engine fetches, the outcome of the fetch stage, and the
inversion of a step into a fetch fault or a committed instruction.
-/

namespace Sys2Proof.Machine

/-- Running, spelled in the fields (spec/10_state.md R19). -/
theorem status_running {s : State} : s.status = .running ↔ s.run = true ∧ s.err = none := by
  unfold State.status
  cases s.err <;> cases s.run <;> simp

theorem status_halted {s : State} : s.status = .halted ↔ s.run = false ∧ s.err = none := by
  unfold State.status
  cases s.err <;> cases s.run <;> simp

theorem status_faulted {s : State} : s.status = .faulted ↔ s.err ≠ none := by
  unfold State.status
  cases s.err <;> cases s.run <;> simp

/-- The engine fetches the byte in memory, where there is one (spec/40_cycle.md R71, R72). -/
theorem fetchByte_eq (s : State) (k : Nat) :
    s.fetchByte k = if s.pc.toNat + k ≤ 255 then some (s.codeByte k) else none := by
  unfold State.fetchByte
  by_cases h : s.pc.toNat + k ≤ 255
  · rw [memRead_of_le s (by omega) (by omega)]
    simp only [h, if_true, State.codeByte]
    congr
  · rw [memRead_of_gt s (by omega)]
    simp [h]

/-- The window is what the engine fetches. -/
theorem window_getElem? (s : State) (k : Nat) : s.window[k]? = s.fetchByte k := by
  rw [fetchByte_eq, State.window, List.getElem?_map]
  by_cases h : s.pc.toNat + k ≤ 255
  · rw [List.getElem?_range (by omega)]; simp [h]
  · rw [List.getElem?_eq_none (by simp; omega)]; simp [h]

/-- The opcode byte always exists (R71). -/
theorem fetchByte_zero (s : State) : s.fetchByte 0 = some (s.codeByte 0) := by
  rw [fetchByte_eq, if_pos (by omega)]

/-- No step outside status Running (R70). -/
theorem cycle_halted {c : Config} {ex} {s : State} (h : s.status = .halted) : cycle c ex s = .fault .halted := by
  simp [cycle, h]

theorem cycle_faulted {c : Config} {ex} {s : State} (h : s.status = .faulted) : cycle c ex s = .fault .faulted := by
  simp [cycle, h]

/-- The step of a Running machine whose fetch stage raises. -/
theorem cycle_of_fetch_error {c : Config} {ex} {s : State} {f : FaultValue} (h : s.status = .running)
    (hf : fetch c s = .error f) : cycle c ex s = .next (raise s f) := by
  simp [cycle, h, hf]

/-- The step of a Running machine whose fetch stage answers an instruction. -/
theorem cycle_of_fetch_ok {c : Config} {ex} {s : State} {i : Instr} (h : s.status = .running)
    (hf : fetch c s = .ok i) : cycle c ex s = ex i s := by
  simp [cycle, h, hf]

/-- An unknown opcode byte (R71, R145). -/
theorem fetch_unknown {c : Config} {s : State} (h : ∀ m, c.opc m ≠ s.codeByte 0) :
    fetch c s = .error (.unknownInstruction (s.codeByte 0)) := by
  simp [fetch, decodeFrom, fetchByte_zero, Config.lookup_eq_none.mpr h]

/-- The fetch stage of a known opcode byte: the operands decide. -/
theorem fetch_known {c : Config} {s : State} {m : Mnemonic} (hv : ∀ m n, c.opc m = c.opc n → m = n)
    (h : s.codeByte 0 = c.opc m) :
    fetch c s = match decodeOperands s.fetchByte m with
      | .ok i => .ok i
      | .error (.unknownInstruction op) => .error (.unknownInstruction op)
      | .error (.missingByte k) => .error (.outOfRangeAddress ((s.pc.toNat : Int) + k)) := by
  have operands : decodeFrom c s.fetchByte = decodeOperands s.fetchByte m := by
    rw [decodeFrom, fetchByte_zero]
    simp only [h, Config.lookup_opc hv]
  rw [← operands]
  rfl

/-- One operand: it is fetched, or address 256 is presented (R72). -/
theorem fetch_one {c : Config} {s : State} {m : Mnemonic} {mk : Byte → Instr} (hv : ∀ m n, c.opc m = c.opc n → m = n)
    (h : s.codeByte 0 = c.opc m) (hm : ∀ byteAt, decodeOperands byteAt m = oneOperand byteAt mk) :
    fetch c s = if s.pc.toNat = 255 then .error (.outOfRangeAddress 256) else .ok (mk (s.codeByte 1)) := by
  rw [fetch_known hv h, hm, oneOperand, fetchByte_eq]
  by_cases hp : s.pc.toNat = 255
  · simp [hp]
  · rw [if_pos (show s.pc.toNat + 1 ≤ 255 by omega), if_neg hp]

/-- Two operands: both are fetched, or address 256 is presented (R72). -/
theorem fetch_two {c : Config} {s : State} {m : Mnemonic} {mk : Byte → Byte → Instr}
    (hv : ∀ m n, c.opc m = c.opc n → m = n) (h : s.codeByte 0 = c.opc m)
    (hm : ∀ byteAt, decodeOperands byteAt m = twoOperands byteAt mk) :
    fetch c s =
      if 254 ≤ s.pc.toNat then .error (.outOfRangeAddress 256) else .ok (mk (s.codeByte 1) (s.codeByte 2)) := by
  rw [fetch_known hv h, hm, twoOperands, fetchByte_eq, fetchByte_eq]
  have : s.pc.toNat < 256 := s.pc.isLt
  by_cases h5 : s.pc.toNat = 255
  · simp [h5]
  · rw [if_pos (show s.pc.toNat + 1 ≤ 255 by omega)]
    by_cases h4 : s.pc.toNat = 254
    · simp [h4]
    · rw [if_pos (show s.pc.toNat + 2 ≤ 255 by omega), if_neg (by omega)]

/-- No operand: nothing more is fetched (R72). -/
theorem fetch_none {c : Config} {s : State} {m : Mnemonic} {i : Instr} (hv : ∀ m n, c.opc m = c.opc n → m = n)
    (h : s.codeByte 0 = c.opc m) (hm : ∀ byteAt, decodeOperands byteAt m = .ok i) : fetch c s = .ok i := by
  rw [fetch_known hv h, hm]

/-- Everything the fetch stage can answer: the unknown opcode, address 256, or an instruction with its own bytes. -/
theorem fetch_cases {c : Config} (s : State) (hv : ∀ m n, c.opc m = c.opc n → m = n) :
    ((∀ m, c.opc m ≠ s.codeByte 0) ∧ fetch c s = .error (.unknownInstruction (s.codeByte 0))) ∨
    ((∃ m, s.codeByte 0 = c.opc m) ∧ fetch c s = .error (.outOfRangeAddress 256)) ∨
    ∃ i : Instr, fetch c s = .ok i ∧ s.codeByte 0 = c.opc i.mnemonic ∧
      ∀ k v, (encode c i)[k]? = some v → s.codeByte k = v := by
  by_cases hk : ∀ m, c.opc m ≠ s.codeByte 0
  · exact .inl ⟨hk, fetch_unknown hk⟩
  · simp only [not_forall, not_not] at hk
    obtain ⟨m, hm⟩ := hk
    right
    let Known : Prop := ((∃ m, s.codeByte 0 = c.opc m) ∧ fetch c s = .error (.outOfRangeAddress 256)) ∨
      ∃ i : Instr, fetch c s = .ok i ∧ s.codeByte 0 = c.opc i.mnemonic ∧
        ∀ k v, (encode c i)[k]? = some v → s.codeByte k = v
    have two : ∀ mk : Byte → Byte → Instr, (∀ byteAt, decodeOperands byteAt m = twoOperands byteAt mk) →
        (∀ a b, (mk a b).mnemonic = m ∧ encode c (mk a b) = [c.opc m, a, b]) → Known := fun mk h1 h2 => by
      have := fetch_two hv hm.symm h1
      by_cases h : 254 ≤ s.pc.toNat
      · exact Or.inl ⟨⟨m, hm.symm⟩, by rw [this, if_pos h]⟩
      · refine Or.inr ⟨_, by rw [this, if_neg h], by rw [(h2 _ _).1, hm], ?_⟩
        rw [(h2 _ _).2]
        intro k v hv'
        match k with
        | 0 => simpa [hm] using hv'
        | 1 => simpa using hv'
        | 2 => simpa using hv'
        | k + 3 => simp at hv'
    have one : ∀ mk : Byte → Instr, (∀ byteAt, decodeOperands byteAt m = oneOperand byteAt mk) →
        (∀ a, (mk a).mnemonic = m ∧ encode c (mk a) = [c.opc m, a]) → Known := fun mk h1 h2 => by
      have := fetch_one hv hm.symm h1
      by_cases h : s.pc.toNat = 255
      · exact Or.inl ⟨⟨m, hm.symm⟩, by rw [this, if_pos h]⟩
      · refine Or.inr ⟨_, by rw [this, if_neg h], by rw [(h2 _).1, hm], ?_⟩
        rw [(h2 _).2]
        intro k v hv'
        match k with
        | 0 => simpa [hm] using hv'
        | 1 => simpa using hv'
        | k + 2 => simp at hv'
    have none : ∀ i : Instr, (∀ byteAt, decodeOperands byteAt m = .ok i) →
        (i.mnemonic = m ∧ encode c i = [c.opc m]) → Known := fun i h1 h2 => by
      refine Or.inr ⟨i, fetch_none hv hm.symm h1, by rw [h2.1, hm], ?_⟩
      rw [h2.2]
      intro k v hv'
      match k with
      | 0 => simpa [hm] using hv'
      | k + 1 => simp at hv'
    cases m with
    | ldi => exact two .ldi (fun _ => rfl) (fun _ _ => ⟨rfl, rfl⟩)
    | prn => exact one .prn (fun _ => rfl) (fun _ => ⟨rfl, rfl⟩)
    | hlt => exact none .hlt (fun _ => rfl) ⟨rfl, rfl⟩
    | mul => exact two .mul (fun _ => rfl) (fun _ _ => ⟨rfl, rfl⟩)
    | add => exact two .add (fun _ => rfl) (fun _ _ => ⟨rfl, rfl⟩)
    | push => exact one .push (fun _ => rfl) (fun _ => ⟨rfl, rfl⟩)
    | pop => exact one .pop (fun _ => rfl) (fun _ => ⟨rfl, rfl⟩)
    | call => exact one .call (fun _ => rfl) (fun _ => ⟨rfl, rfl⟩)
    | ret => exact none .ret (fun _ => rfl) ⟨rfl, rfl⟩
    | cmp => exact two .cmp (fun _ => rfl) (fun _ _ => ⟨rfl, rfl⟩)
    | jmp => exact one .jmp (fun _ => rfl) (fun _ => ⟨rfl, rfl⟩)
    | jeq => exact one .jeq (fun _ => rfl) (fun _ => ⟨rfl, rfl⟩)
    | jne => exact one .jne (fun _ => rfl) (fun _ => ⟨rfl, rfl⟩)

/-- Every meaning ends in `commit`: no instruction faults or is refused in the host's sense (spec/40_cycle.md R74). -/
theorem exec_commits (i : Instr) (s : State) : ∃ r, exec i s = commit s r := by
  cases i <;> exact ⟨_, rfl⟩

/-- Everything a step that exists can do: raise in the fetch stage, or execute the instruction at the program counter. -/
theorem step_cases {s t : State} (h : step s = .next t) :
    s.status = .running ∧
    ((∃ f, fetch Config.default s = .error f ∧ t = raise s f) ∨
      ∃ i : Instr, fetch Config.default s = .ok i ∧ s.codeByte 0 = Config.default.opc i.mnemonic ∧
        (∀ k v, (encode Config.default i)[k]? = some v → s.codeByte k = v) ∧ exec i s = .next t) := by
  have hr : s.status = .running := by
    cases hs : s.status with
    | running => rfl
    | halted => rw [step, cycle_halted hs] at h; cases h
    | faulted => rw [step, cycle_faulted hs] at h; cases h
  refine ⟨hr, ?_⟩
  obtain ⟨_, hf⟩ | ⟨_, hf⟩ | ⟨i, hf, h0, hk⟩ := fetch_cases (c := Config.default) s Config.default_valid.1
  · rw [step, cycle_of_fetch_error hr hf] at h
    exact .inl ⟨_, hf, by simpa using h.symm⟩
  · rw [step, cycle_of_fetch_error hr hf] at h
    exact .inl ⟨_, hf, by simpa using h.symm⟩
  · rw [step, cycle_of_fetch_ok hr hf] at h
    exact .inr ⟨i, hf, h0, hk, h⟩

end Sys2Proof.Machine
end

