-- ==== Sys2Proof/Laws/Exec.lean ====
section
/-!
SUPPORT. What each meaning answers, as one equation: the fault its own statements raise, in order, or the state it builds.
Later proofs cite these and unfold no meaning.
-/

namespace Sys2Proof.Machine

/-- A good register operand byte names the register the statements call `regOf`. -/
theorem regOf_eq {a : Byte} (h : a.toNat ≤ 7) : (⟨a.toNat, by omega⟩ : RegNum) = regOf a :=
  Fin.ext (Nat.mod_eq_of_lt (by omega)).symm

/-- One register operand, good or bad (spec/30_encoding.md R55). -/
theorem withReg_eq (a : Byte) (k : RegNum → Except FaultValue State) :
    withReg a k = if 7 < a.toNat then .error (.invalidRegisterIndex a) else k (regOf a) := by
  by_cases h : 7 < a.toNat
  · rw [withReg_of_gt h, if_pos h]
  · rw [withReg_of_le (by omega), regOf_eq, if_neg h]
    omega

/-- Falling through, within memory or past its end (spec/10_state.md R15). -/
theorem fallThrough_eq (s : State) (n : Nat) :
    fallThrough s n =
      if 255 < s.pc.toNat + n then .error (.outOfRangeAddress ((s.pc.toNat + n : Nat) : Int))
      else .ok { s with pc := BitVec.ofNat 8 (s.pc.toNat + n) } := by
  split
  · exact fallThrough_of_gt s ‹_›
  · exact fallThrough_of_le s (by omega)

/-- The decrement of the stack pointer, or its fault at 0 (R13). -/
theorem decSp_eq (s : State) :
    decSp s =
      if (s.getReg spReg).toNat = 0 then .error (.outOfRangeAddress (-1))
      else .ok (s.setReg spReg (BitVec.ofNat 8 ((s.getReg spReg).toNat - 1))) := by
  split
  · exact decSp_of_zero s ‹_›
  · exact decSp_of_pos s (by omega)

/-- The increment of the stack pointer, or its fault at 255 (R13). -/
theorem incSp_eq (s : State) :
    incSp s =
      if (s.getReg spReg).toNat = 255 then .error (.outOfRangeAddress 256)
      else .ok (s.setReg spReg (BitVec.ofNat 8 ((s.getReg spReg).toNat + 1))) := by
  split
  · exact incSp_of_max s ‹_›
  · exact incSp_of_lt s (by omega)

/-- CALL's return address, or its fault (R111). -/
theorem returnAddress_eq (s : State) :
    returnAddress s =
      if 253 < s.pc.toNat then .error (.outOfRangeAddress ((s.pc.toNat + 2 : Nat) : Int))
      else .ok (BitVec.ofNat 8 (s.pc.toNat + 2)) := by
  split
  · exact returnAddress_of_gt s ‹_›
  · exact returnAddress_of_le s (by omega)

/-- An instruction whose last operation may raise. -/
theorem commit_guard (s : State) (p : Prop) [Decidable p] (f : FaultValue) (t : State) :
    commit s (if p then .error f else .ok t) = if p then .next (raise s f) else .next t := by
  split <;> rfl

/-- An operation that may raise, and the statements after it. -/
theorem commit_guard_bind {α : Type} (s : State) (p : Prop) [Decidable p] (f : FaultValue) (v : α)
    (k : α → Except FaultValue State) :
    commit s ((if p then .error f else .ok v) >>= k) = if p then .next (raise s f) else commit s (k v) := by
  split <;> rfl

/-- An operation that cannot raise, and the statements after it. -/
theorem commit_ok_bind {α : Type} (s : State) (v : α) (k : α → Except FaultValue State) :
    commit s (.ok v >>= k) = commit s (k v) := rfl

/-- The register operand, and the statements after it. -/
theorem commit_withReg (a : Byte) (s : State) (k : RegNum → Except FaultValue State) :
    commit s (withReg a k) = if 7 < a.toNat then .next (raise s (.invalidRegisterIndex a)) else commit s (k (regOf a)) := by
  rw [withReg_eq]
  split <;> rfl

variable (a b : Byte) (s : State)

theorem execLdi_eq :
    execLdi a b s =
      if 7 < a.toNat then .next (raise s (.invalidRegisterIndex a))
      else if 255 < s.pc.toNat + 3 then .next (raise s (.outOfRangeAddress ((s.pc.toNat + 3 : Nat) : Int)))
      else .next { s.setReg (regOf a) b with pc := BitVec.ofNat 8 (s.pc.toNat + 3) } := by
  rw [execLdi, commit_withReg, fallThrough_eq, commit_guard]
  rfl

theorem execPrn_eq :
    execPrn a s =
      if 7 < a.toNat then .next (raise s (.invalidRegisterIndex a))
      else if 255 < s.pc.toNat + 2 then .next (raise s (.outOfRangeAddress ((s.pc.toNat + 2 : Nat) : Int)))
      else .next { emit s (s.getReg (regOf a)) with pc := BitVec.ofNat 8 (s.pc.toNat + 2) } := by
  rw [execPrn, commit_withReg, fallThrough_eq, commit_guard]
  rfl

theorem execHlt_eq :
    execHlt s =
      if 255 < s.pc.toNat + 1 then .next (raise s (.outOfRangeAddress ((s.pc.toNat + 1 : Nat) : Int)))
      else .next { s with run := false, pc := BitVec.ofNat 8 (s.pc.toNat + 1) } := by
  rw [execHlt, fallThrough_eq, commit_guard]

/-- The three-byte forms with two registers share their faults (R93 to R95). -/
theorem commit_withRegs_eq (k : RegNum → RegNum → State) (hk : ∀ ra rb, (k ra rb).pc = s.pc) :
    commit s (withRegs a b fun ra rb => fallThrough (k ra rb) 3) =
      if 7 < a.toNat then .next (raise s (.invalidRegisterIndex a))
      else if 7 < b.toNat then .next (raise s (.invalidRegisterIndex b))
      else if 255 < s.pc.toNat + 3 then .next (raise s (.outOfRangeAddress ((s.pc.toNat + 3 : Nat) : Int)))
      else .next { k (regOf a) (regOf b) with pc := BitVec.ofNat 8 (s.pc.toNat + 3) } := by
  rw [withRegs, commit_withReg, commit_withReg, fallThrough_eq, commit_guard, hk]

theorem execMul_eq :
    execMul a b s =
      if 7 < a.toNat then .next (raise s (.invalidRegisterIndex a))
      else if 7 < b.toNat then .next (raise s (.invalidRegisterIndex b))
      else if 255 < s.pc.toNat + 3 then .next (raise s (.outOfRangeAddress ((s.pc.toNat + 3 : Nat) : Int)))
      else .next { s.setReg (regOf a) (aluMul (s.getReg (regOf a)) (s.getReg (regOf b))) with
        pc := BitVec.ofNat 8 (s.pc.toNat + 3) } :=
  commit_withRegs_eq a b s _ fun _ _ => rfl

theorem execAdd_eq :
    execAdd a b s =
      if 7 < a.toNat then .next (raise s (.invalidRegisterIndex a))
      else if 7 < b.toNat then .next (raise s (.invalidRegisterIndex b))
      else if 255 < s.pc.toNat + 3 then .next (raise s (.outOfRangeAddress ((s.pc.toNat + 3 : Nat) : Int)))
      else .next { s.setReg (regOf a) (aluAdd (s.getReg (regOf a)) (s.getReg (regOf b))) with
        pc := BitVec.ofNat 8 (s.pc.toNat + 3) } :=
  commit_withRegs_eq a b s _ fun _ _ => rfl

theorem execCmpWith_eq (c : Config) :
    execCmpWith c a b s =
      if 7 < a.toNat then .next (raise s (.invalidRegisterIndex a))
      else if 7 < b.toNat then .next (raise s (.invalidRegisterIndex b))
      else if 255 < s.pc.toNat + 3 then .next (raise s (.outOfRangeAddress ((s.pc.toNat + 3 : Nat) : Int)))
      else .next { s with
        fl := compareFlags c (s.getReg (regOf a)) (s.getReg (regOf b)), pc := BitVec.ofNat 8 (s.pc.toNat + 3) } :=
  commit_withRegs_eq a b s _ fun _ _ => rfl

/-- The state after the stack pointer went down by 1 and byte `v` was stored where it then points. -/
def afterPush (s : State) (v : Byte) : State :=
  let n := (s.getReg spReg).toNat - 1
  { s.setReg spReg (BitVec.ofNat 8 n) with mem := s.mem.write n v }

/-- Storing after the decrement. -/
theorem storeTop_after_decSp {s : State} (v : Byte) (_ : (s.getReg spReg).toNat ≠ 0) :
    storeTop (s.setReg spReg (BitVec.ofNat 8 ((s.getReg spReg).toNat - 1))) v = .ok (afterPush s v) := by
  have : ((s.getReg spReg).toNat - 1) % 256 = (s.getReg spReg).toNat - 1 := Nat.mod_eq_of_lt (by omega)
  rw [storeTop_eq, getReg_setReg_same, BitVec.toNat_ofNat, this]
  rfl

theorem execPush_eq :
    execPush a s =
      if 7 < a.toNat then .next (raise s (.invalidRegisterIndex a))
      else if (s.getReg spReg).toNat = 0 then .next (raise s (.outOfRangeAddress (-1)))
      else if 255 < s.pc.toNat + 2 then .next (raise s (.outOfRangeAddress ((s.pc.toNat + 2 : Nat) : Int)))
      else .next { afterPush s
          (if regOf a = 7 then BitVec.ofNat 8 ((s.getReg spReg).toNat - 1) else s.getReg (regOf a)) with
        pc := BitVec.ofNat 8 (s.pc.toNat + 2) } := by
  rw [execPush, commit_withReg, decSp_eq, commit_guard_bind]
  by_cases h : (s.getReg spReg).toNat = 0
  · rw [if_pos h, if_pos h]
  · rw [if_neg h, if_neg h, storeTop_after_decSp _ h, commit_ok_bind, fallThrough_eq, commit_guard, getReg_setReg]
    simp only [spReg, eq_comm (a := (7 : RegNum)) (b := regOf a)]
    rfl

theorem execPop_eq :
    execPop a s =
      if 7 < a.toNat then .next (raise s (.invalidRegisterIndex a))
      else if ((s.setReg (regOf a) (s.mem.read (s.getReg spReg).toNat)).getReg spReg).toNat = 255 then
        .next (raise s (.outOfRangeAddress 256))
      else if 255 < s.pc.toNat + 2 then .next (raise s (.outOfRangeAddress ((s.pc.toNat + 2 : Nat) : Int)))
      else .next { (s.setReg (regOf a) (s.mem.read (s.getReg spReg).toNat)).setReg spReg
          (BitVec.ofNat 8 (((s.setReg (regOf a) (s.mem.read (s.getReg spReg).toNat)).getReg spReg).toNat + 1)) with
        pc := BitVec.ofNat 8 (s.pc.toNat + 2) } := by
  rw [execPop, commit_withReg, loadTop_eq, commit_ok_bind, incSp_eq, commit_guard_bind, fallThrough_eq, commit_guard]
  rfl

theorem execCall_eq :
    execCall a s =
      if 7 < a.toNat then .next (raise s (.invalidRegisterIndex a))
      else if (s.getReg spReg).toNat = 0 then .next (raise s (.outOfRangeAddress (-1)))
      else if 253 < s.pc.toNat then .next (raise s (.outOfRangeAddress ((s.pc.toNat + 2 : Nat) : Int)))
      else .next { afterPush s (BitVec.ofNat 8 (s.pc.toNat + 2)) with
        pc := if regOf a = 7 then BitVec.ofNat 8 ((s.getReg spReg).toNat - 1) else s.getReg (regOf a) } := by
  have target : (afterPush s (BitVec.ofNat 8 (s.pc.toNat + 2))).getReg (regOf a) =
      if regOf a = 7 then BitVec.ofNat 8 ((s.getReg spReg).toNat - 1) else s.getReg (regOf a) := by
    rw [show (afterPush s (BitVec.ofNat 8 (s.pc.toNat + 2))).getReg (regOf a) =
      (s.setReg spReg (BitVec.ofNat 8 ((s.getReg spReg).toNat - 1))).getReg (regOf a) from rfl, getReg_setReg]
    simp only [spReg, eq_comm (a := (7 : RegNum)) (b := regOf a)]
  rw [execCall, commit_withReg, decSp_eq, commit_guard_bind]
  by_cases h : (s.getReg spReg).toNat = 0
  · rw [if_pos h, if_pos h]
  · rw [if_neg h, if_neg h, returnAddress_eq, commit_guard_bind, setReg_pc, storeTop_after_decSp _ h, commit_ok_bind,
      ← target]
    rfl

theorem execRet_eq :
    execRet s =
      if (s.getReg spReg).toNat = 255 then .next (raise s (.outOfRangeAddress 256))
      else .next { s.setReg spReg (BitVec.ofNat 8 ((s.getReg spReg).toNat + 1)) with
        pc := s.mem.read (s.getReg spReg).toNat } := by
  rw [execRet, loadTop_eq, incSp_eq]
  exact commit_guard_bind s _ _ _ _

theorem execJmp_eq :
    execJmp a s =
      if 7 < a.toNat then .next (raise s (.invalidRegisterIndex a)) else .next (jumpTo s (s.getReg (regOf a))) := by
  rw [execJmp, commit_withReg]
  rfl

theorem execJeqWith_eq (c : Config) :
    execJeqWith c a s =
      if 7 < a.toNat then .next (raise s (.invalidRegisterIndex a))
      else if s.flagE c then .next (jumpTo s (s.getReg (regOf a)))
      else if 255 < s.pc.toNat + 2 then .next (raise s (.outOfRangeAddress ((s.pc.toNat + 2 : Nat) : Int)))
      else .next (jumpTo s (BitVec.ofNat 8 (s.pc.toNat + 2))) := by
  rw [execJeqWith, commit_withReg, fallThrough_eq, apply_ite (commit s), commit_guard]
  rfl

theorem execJneWith_eq (c : Config) :
    execJneWith c a s =
      if 7 < a.toNat then .next (raise s (.invalidRegisterIndex a))
      else if s.flagE c then
        if 255 < s.pc.toNat + 2 then .next (raise s (.outOfRangeAddress ((s.pc.toNat + 2 : Nat) : Int)))
        else .next (jumpTo s (BitVec.ofNat 8 (s.pc.toNat + 2)))
      else .next (jumpTo s (s.getReg (regOf a))) := by
  rw [execJneWith, commit_withReg, fallThrough_eq, apply_ite (commit s), commit_guard]
  rfl

end Sys2Proof.Machine
end

