-- ==== Sys2Proof/Laws/Flags.lean ====
section
/-!
SUPPORT. The flag computations: the bits of a one-bit byte, and what CMP leaves in bit E (spec/43_alu.md R95).
-/

namespace Sys2Proof.Machine

/-- The byte with only bit `i` set has bit `j` set exactly when the two are the same bit. -/
theorem flagBit_getLsbD (i j : Fin 8) : (flagBit i).getLsbD j = decide (i = j) := by
  revert i j
  decide

/-- After CMP, whatever the layout of distinct flags, E is set exactly when the operands are equal. -/
theorem compareFlags_flE {c : Config} (h : c.FlagsDistinct) (va vb : Byte) :
    (compareFlags c va vb).getLsbD c.flE = decide (va = vb) := by
  unfold compareFlags
  by_cases e : va = vb
  · rw [if_pos (congrArg BitVec.toNat e), flagBit_getLsbD]
    simp [e]
  · rw [if_neg fun e' => e (BitVec.eq_of_toNat_eq e')]
    split <;> rw [flagBit_getLsbD]
    · simp [e, h.1.symm]
    · simp [e, h.2.1.symm]

/-- CMP leaves exactly one of E, G, L set. -/
theorem compareFlags_cases (c : Config) (va vb : Byte) :
    compareFlags c va vb = flagBit c.flE ∨ compareFlags c va vb = flagBit c.flG ∨
      compareFlags c va vb = flagBit c.flL := by
  unfold compareFlags
  split
  · exact .inl rfl
  · split
    · exact .inr (.inl rfl)
    · exact .inr (.inr rfl)

end Sys2Proof.Machine
end

