-- ==== Sys2Proof/Laws/Parametric.lean ====
section
/-!
SUPPORT. The machine the host runs is the parametric machine at the default configuration (spec/00_scope.md R6).
-/

namespace Sys2Proof.Machine

theorem execWith_default (i : Instr) (s : State) : execWith Config.default i s = exec i s := by cases i <;> rfl

theorem stepWith_default (s : State) : stepWith Config.default s = step s := by
  rw [stepWith, step, show execWith Config.default = exec from funext fun i => funext fun s => execWith_default i s]

end Sys2Proof.Machine
end

