-- ==== Sys2Proof/Laws/PerInstr.lean ====
section
/-!
SUPPORT. The per-instruction family `EncodeShape`: under every configuration an instruction has as many bytes as its
mnemonic's format says, begins with its opcode byte, and its register operand bytes follow it in order (spec/30_encoding.md
R50 to R53).
-/

namespace Sys2Proof.Laws.EncodeShape

/-- The bytes of an instruction: their number, the opcode first, then the register operands. -/
def Statement (i : Instr) : Prop :=
  ∀ c : Config, (encode c i).length = i.length ∧ (encode c i).head? = some (c.opc i.mnemonic) ∧
    i.regOperands <+: (encode c i).tail

theorem ldi (reg value : Byte) : Statement (.ldi reg value) := fun _ => ⟨rfl, rfl, ⟨[value], rfl⟩⟩
theorem prn (reg : Byte) : Statement (.prn reg) := fun _ => ⟨rfl, rfl, ⟨[], rfl⟩⟩
theorem hlt : Statement .hlt := fun _ => ⟨rfl, rfl, ⟨[], rfl⟩⟩
theorem mul (regA regB : Byte) : Statement (.mul regA regB) := fun _ => ⟨rfl, rfl, ⟨[], rfl⟩⟩
theorem add (regA regB : Byte) : Statement (.add regA regB) := fun _ => ⟨rfl, rfl, ⟨[], rfl⟩⟩
theorem push (reg : Byte) : Statement (.push reg) := fun _ => ⟨rfl, rfl, ⟨[], rfl⟩⟩
theorem pop (reg : Byte) : Statement (.pop reg) := fun _ => ⟨rfl, rfl, ⟨[], rfl⟩⟩
theorem call (reg : Byte) : Statement (.call reg) := fun _ => ⟨rfl, rfl, ⟨[], rfl⟩⟩
theorem ret : Statement .ret := fun _ => ⟨rfl, rfl, ⟨[], rfl⟩⟩
theorem cmp (regA regB : Byte) : Statement (.cmp regA regB) := fun _ => ⟨rfl, rfl, ⟨[], rfl⟩⟩
theorem jmp (reg : Byte) : Statement (.jmp reg) := fun _ => ⟨rfl, rfl, ⟨[], rfl⟩⟩
theorem jeq (reg : Byte) : Statement (.jeq reg) := fun _ => ⟨rfl, rfl, ⟨[], rfl⟩⟩
theorem jne (reg : Byte) : Statement (.jne reg) := fun _ => ⟨rfl, rfl, ⟨[], rfl⟩⟩

end Sys2Proof.Laws.EncodeShape
end

