-- ==== Sys2Proof/Tests/Slice0.lean ====
section
/-!
SUPPORT. The model's own tests. Expected values come from the spec: the vectors V<n> and programs P<n> of
spec/95_test_vectors.md, the tables of spec/30_encoding.md R56 and spec/43_alu.md R96, the examples of the instruction
rules. The theorems named test_witness_<statement> show that the hypotheses of that statement can be met, clause by clause,
at values where clauses meet.
-/

namespace Sys2Proof.Tests

open Sys2Proof.Machine

/-- The reset state with `pc` set and bytes placed from `pc` on. -/
def place (pc : Byte) (bytes : List Byte) : State := storeBytes { State.reset with pc := pc } pc.toNat bytes

/-- `s` with byte `v` in general register `r`. -/
def reg (s : State) (r : RegNum) (v : Byte) : State := s.setReg r v

/-- `s` with byte `v` in cell `a`. -/
def cell (s : State) (a : Nat) (v : Byte) : State := { s with mem := s.mem.write a v }

/-- The state after an outcome, where there is one. -/
def next? : Host.Outcome State Fault Refusal → Option State
  | .next t => some t
  | _ => none

/-- The state after one step, where there is one. -/
def after (s : State) : Option State := next? (step s)

/-! ### Well-formed instructions: one ill-formed term for each register operand check -/

theorem test_wellFormed_good :
    [Instr.ldi 7 255, .prn 0, .hlt, .mul 0 7, .add 7 7, .push 7, .pop 7, .call 7, .ret, .cmp 7 0, .jmp 7, .jeq 7,
      .jne 7].all Instr.wellFormed = true := by decide

theorem test_wellFormed_refuses_first_operand :
    [Instr.ldi 8 0, .prn 8, .mul 8 0, .add 255 0, .push 8, .pop 8, .call 9, .cmp 8 0, .jmp 8, .jeq 255, .jne 8].any
      Instr.wellFormed = false := by decide

theorem test_wellFormed_refuses_second_operand :
    [Instr.mul 0 8, .add 0 255, .cmp 7 8].any Instr.wellFormed = false := by decide

/-! ### Decoding: one word for each constructor, written out from R56's table, first byte lowest (R51, R52) -/

theorem test_decode_ldi : decodeTableWord 24 0b11111111_00000011_10000010 = some (.ldi 3 255) := by decide
theorem test_decode_prn : decodeTableWord 16 0b00000101_01000111 = some (.prn 5) := by decide
theorem test_decode_hlt : decodeTableWord 8 0b00000001 = some .hlt := by decide
theorem test_decode_mul : decodeTableWord 24 0b00000010_00000001_10100010 = some (.mul 1 2) := by decide
theorem test_decode_add : decodeTableWord 24 0b00000111_00000110_10100000 = some (.add 6 7) := by decide
theorem test_decode_push : decodeTableWord 16 0b00000100_01000101 = some (.push 4) := by decide
theorem test_decode_pop : decodeTableWord 16 0b00000010_01000110 = some (.pop 2) := by decide
theorem test_decode_call : decodeTableWord 16 0b00000001_01010000 = some (.call 1) := by decide
theorem test_decode_ret : decodeTableWord 8 0b00010001 = some .ret := by decide
theorem test_decode_cmp : decodeTableWord 24 0b00000010_00000000_10100111 = some (.cmp 0 2) := by decide
theorem test_decode_jmp : decodeTableWord 16 0b00000011_01010100 = some (.jmp 3) := by decide
theorem test_decode_jeq : decodeTableWord 16 0b00000011_01010101 = some (.jeq 3) := by decide
theorem test_decode_jne : decodeTableWord 16 0b00000110_01010110 = some (.jne 6) := by decide

/-- A register operand byte is kept as it is, neither masked nor wrapped (R55), and bytes that are no opcode are refused by
name (R58): 0x00, and DIV of the teaching machine, 0xA3 (spec/00_scope.md R4 (e)). -/
theorem test_decode_refuses :
    decodeTableWord 16 0b00001000_01000111 = some (.prn 8) ∧
    decode Config.default [0x00#8] = .error (.unknownInstruction 0x00#8) ∧
    decode Config.default [0xA3#8, 0#8, 1#8] = .error (.unknownInstruction 0xA3#8) ∧
    decode Config.default [0x82#8, 0#8] = .error (.missingByte 2) := by decide

/-- R61's example, and P1's image. -/
theorem test_assemble :
    assemble Config.default [.ldi 0 8, .ldi 1 9, .mul 0 1, .prn 0, .hlt] =
      [0x82#8, 0x00#8, 0x08#8, 0x82#8, 0x01#8, 0x09#8, 0xA2#8, 0x00#8, 0x01#8, 0x47#8, 0x00#8, 0x01#8] := by decide

/-- R53: under the default bytes the length is also one more than the opcode's top two bits. -/
theorem test_length_by_top_bits :
    Mnemonic.all.all (fun m => m.length = 1 + (Config.default.opc m).toNat / 64) = true ∧ Mnemonic.all.length = 13 := by
  decide

/-- The host's placement: the very next step after reset runs the placed instruction (V20). -/
theorem test_withFetchWord :
    (after (State.reset.withFetchWord 24 0x080082)).map (fun t => (t.x[0], t.pc)) = some (8#8, 3#8) := by decide

/-! ### One step of each instruction -/

/-- V20 and V22. -/
theorem test_ldi_loads :
    (after (place 0 [0x82, 0, 8])).map (fun t => (t.x[0], t.pc)) = some (8#8, 3#8) ∧
    (after (place 0 [0x82, 7, 9])).map (fun t => (t.x[7], t.pc)) = some (9#8, 3#8) := by decide

/-- V25, V26, V27 and V28: the last address at which LDI completes, and the three faults past it. -/
theorem test_ldi_at_the_top :
    (after (place 252 [0x82, 0, 5])).map (fun t => (t.x[0], t.pc, t.err)) = some (5#8, 255#8, none) ∧
    (after (place 253 [0x82, 0, 5])).map (fun t => (t.x[0], t.pc, t.err)) =
      some (0#8, 253#8, some (.outOfRangeAddress 256)) ∧
    (after (place 254 [0x82, 0])).map (·.err) = some (some (.outOfRangeAddress 256)) ∧
    (after (place 255 [0x82])).map (·.err) = some (some (.outOfRangeAddress 256)) := by decide

/-- V29 and V29a. -/
theorem test_prn_emits :
    (after (reg (place 0 [0x47, 0]) 0 72)).map (fun t => (t.out, t.pc)) = some ([72#8], 2#8) ∧
    (after (place 0 [0x47, 7])).map (·.out) = some [244#8] := by decide

/-- V29b and V29c: nothing is emitted on a fault. -/
theorem test_prn_faults :
    (after (place 0 [0x47, 9])).map (fun t => (t.out, t.err)) = some ([], some (.invalidRegisterIndex 9#8)) ∧
    (after (reg (place 254 [0x47, 0]) 0 9)).map (fun t => (t.out, t.err)) =
      some ([], some (.outOfRangeAddress 256)) := by decide

/-- V14 and V15. -/
theorem test_hlt_halts :
    (after (place 0 [0x01])).map (fun t => (t.run, t.pc, t.status)) = some (false, 1#8, .halted) ∧
    (after (place 254 [0x01])).map (fun t => (t.run, t.pc)) = some (false, 255#8) := by decide

/-- V16: HLT at the last address faults and does not halt. -/
theorem test_hlt_at_255 :
    (after (place 255 [0x01])).map (fun t => (t.run, t.err, t.status)) =
      some (true, some (.outOfRangeAddress 256), .faulted) := by decide

/-- V35, V36 and V37. -/
theorem test_mul_wraps :
    (after (reg (reg (place 0 [0xA2, 0, 1]) 0 8) 1 9)).map (fun t => (t.x[0], t.pc)) = some (72#8, 3#8) ∧
    (after (reg (reg (place 0 [0xA2, 0, 1]) 0 255) 1 255)).map (·.x[0]) = some 1#8 ∧
    (after (reg (place 0 [0xA2, 0, 0]) 0 16)).map (·.x[0]) = some 0#8 := by decide

/-- V41 and V42: the first bad operand is the one reported. -/
theorem test_mul_bad_operands :
    (after (place 0 [0xA2, 0, 255])).map (·.err) = some (some (.invalidRegisterIndex 255#8)) ∧
    (after (place 0 [0xA2, 9, 10])).map (·.err) = some (some (.invalidRegisterIndex 9#8)) := by decide

/-- V38 and V39: the sum wraps and `FL` stays. -/
theorem test_add_wraps :
    (after (reg (reg (place 0 [0xA0, 0, 1]) 0 200) 1 100)).map (·.x[0]) = some 44#8 ∧
    (after { reg (reg (place 0 [0xA0, 0, 1]) 0 255) 1 1 with fl := 4#8 }).map (fun t => (t.x[0], t.fl)) =
      some (0#8, 4#8) := by decide

/-- V40 and V43: arithmetic on R7 wraps; at address 253 the sum is discarded. -/
theorem test_add_r7_and_top :
    (after (reg (place 0 [0xA0, 7, 0]) 0 0x10)).map (·.x[7]) = some 0x04#8 ∧
    (after (reg (reg (place 253 [0xA0, 0, 1]) 0 1) 1 2)).map (fun t => (t.x[0], t.err)) =
      some (1#8, some (.outOfRangeAddress 256)) := by decide

/-- V30, V31 and V32: unsigned. -/
theorem test_cmp_unsigned :
    (after (reg (reg (place 0 [0xA7, 0, 1]) 0 5) 1 5)).map (·.fl) = some 0b001#8 ∧
    (after (reg (place 0 [0xA7, 0, 1]) 0 255)).map (·.fl) = some 0b010#8 ∧
    (after (reg (place 0 [0xA7, 0, 1]) 1 255)).map (·.fl) = some 0b100#8 := by decide

/-- V33: the old flag is replaced, not or-ed. -/
theorem test_cmp_replaces :
    (after { reg (place 0 [0xA7, 4, 4]) 4 77 with fl := 4#8 }).map (fun t => (t.fl, t.pc)) = some (1#8, 3#8) := by decide

/-- V50, V52 and V44: decrement, then store; the lowest legal push; PUSH R7. -/
theorem test_push_stores :
    (after (reg (place 0 [0x45, 0]) 0 5)).map (fun t => (t.x[7], t.mem.read 0xF3, t.pc)) = some (0xF3#8, 5#8, 2#8) ∧
    (after (reg (reg (place 0 [0x45, 0]) 0 0xAB) 7 1)).map (fun t => (t.x[7], t.mem.read 0)) = some (0#8, 0xAB#8) ∧
    (after (place 0 [0x45, 7])).map (fun t => (t.x[7], t.mem.read 0xF3)) = some (0xF3#8, 0xF3#8) := by decide

/-- V53, V56 and V57: the stack cannot leave memory; a bad index; a discarded push. -/
theorem test_push_faults :
    (after (reg (place 0 [0x45, 0]) 7 0)).map (fun t => (t.x[7], t.err)) = some (0#8, some (.outOfRangeAddress (-1))) ∧
    (after (place 0 [0x45, 8])).map (fun t => (t.x[7], t.err)) = some (0xF4#8, some (.invalidRegisterIndex 8#8)) ∧
    (after (reg (place 254 [0x45, 0]) 0 5)).map (fun t => (t.x[7], t.mem.read 0xF3, t.err)) =
      some (0xF4#8, 0#8, some (.outOfRangeAddress 256)) := by decide

/-- V51 and V45: load, then increment; POP R7. -/
theorem test_pop_loads :
    (after (reg (cell (place 0 [0x46, 0]) 0xF3 5) 7 0xF3)).map (fun t => (t.x[0], t.x[7], t.mem.read 0xF3, t.pc)) =
      some (5#8, 0xF4#8, 5#8, 2#8) ∧
    (after (reg (cell (place 0 [0x46, 7]) 0xF3 0xF3) 7 0xF3)).map (·.x[7]) = some 0xF4#8 := by decide

/-- V54 and V46: the increment past 255, of the pointer and of the byte loaded into R7. -/
theorem test_pop_faults :
    (after (reg (cell (place 0 [0x46, 0]) 0xFF 9) 7 255)).map (fun t => (t.x[0], t.err)) =
      some (0#8, some (.outOfRangeAddress 256)) ∧
    (after (cell (place 0 [0x46, 7]) 0xF4 0xFF)).map (fun t => (t.x[7], t.err)) =
      some (0xF4#8, some (.outOfRangeAddress 256)) := by decide

/-- V72, V75 and V77: the return address is `pc + 2`, at most 255; CALL R7 goes to the new stack pointer. -/
theorem test_call_saves :
    (after (reg (place 6 [0x50, 1]) 1 12)).map (fun t => (t.x[7], t.mem.read 0xF3, t.pc)) = some (0xF3#8, 8#8, 12#8) ∧
    (after (reg (place 253 [0x50, 0]) 0 0x20)).map (fun t => (t.mem.read 0xF3, t.pc)) = some (0xFF#8, 0x20#8) ∧
    (after (place 0 [0x50, 7])).map (fun t => (t.x[7], t.mem.read 0xF3, t.pc)) = some (0xF3#8, 2#8, 0xF3#8) := by decide

/-- V74 and V76. -/
theorem test_call_faults :
    (after (place 254 [0x50, 0])).map (fun t => (t.x[7], t.err)) = some (0xF4#8, some (.outOfRangeAddress 256)) ∧
    (after (reg (place 0 [0x50, 0]) 7 0)).map (·.err) = some (some (.outOfRangeAddress (-1))) := by decide

/-- V73, V78 and V80: RET completes at address 255 too, and on a fresh machine. -/
theorem test_ret_returns :
    (after (reg (cell (place 15 [0x11]) 0xF3 8) 7 0xF3)).map (fun t => (t.pc, t.x[7])) = some (8#8, 0xF4#8) ∧
    (after (reg (cell (place 255 [0x11]) 0xF3 8) 7 0xF3)).map (fun t => (t.pc, t.x[7])) = some (8#8, 0xF4#8) ∧
    (after (place 0 [0x11])).map (fun t => (t.pc, t.x[7])) = some (0#8, 0xF5#8) := by decide

/-- V79. -/
theorem test_ret_faults :
    (after (reg (cell (place 0 [0x11]) 0xFF 9) 7 255)).map (fun t => (t.pc, t.err)) =
      some (0#8, some (.outOfRangeAddress 256)) := by decide

/-- V68 and V70. -/
theorem test_jmp_jumps :
    (after (reg (place 0 [0x54, 3]) 3 12)).map (·.pc) = some 12#8 ∧
    (after (reg (place 254 [0x54, 0]) 0 7)).map (fun t => (t.pc, t.err)) = some (7#8, none) := by decide

/-- V71. -/
theorem test_jmp_at_255 : (after (place 255 [0x54])).map (·.err) = some (some (.outOfRangeAddress 256)) := by decide

/-- V60, V61 and V64: only E takes the jump. -/
theorem test_jeq_reads_e :
    (after { reg (place 0 [0x55, 1]) 1 0x40 with fl := 1#8 }).map (·.pc) = some 0x40#8 ∧
    (after (reg (place 0 [0x55, 1]) 1 0x40)).map (·.pc) = some 2#8 ∧
    (after { reg (place 0 [0x55, 1]) 1 0x40 with fl := 2#8 }).map (·.pc) = some 2#8 := by decide

/-- V65, V66 and V67: at address 254 only a taken jump completes; a bad index faults though the jump is not taken. -/
theorem test_jeq_at_254 :
    (after { reg (place 254 [0x55, 0]) 0 3 with fl := 1#8 }).map (fun t => (t.pc, t.err)) = some (3#8, none) ∧
    (after { reg (place 254 [0x55, 0]) 0 3 with fl := 4#8 }).map (·.err) = some (some (.outOfRangeAddress 256)) ∧
    (after { place 0 [0x55, 9] with fl := 4#8 }).map (·.err) = some (some (.invalidRegisterIndex 9#8)) := by decide

/-- V62 and V63. -/
theorem test_jne_reads_e :
    (after (reg (place 0 [0x56, 1]) 1 0x40)).map (·.pc) = some 0x40#8 ∧
    (after { reg (place 0 [0x56, 1]) 1 0x40 with fl := 1#8 }).map (·.pc) = some 2#8 := by decide

/-- The rows of R96's table, in its order. -/
theorem test_alu_table :
    [aluAdd 0 0, aluAdd 255 1, aluAdd 200 100, aluAdd 5 255, aluMul 8 9, aluMul 16 16, aluMul 255 255, aluMul 200 2,
      aluMul 0 77] = [0#8, 0#8, 44#8, 4#8, 72#8, 0#8, 1#8, 144#8, 0#8] ∧
    [compareFlags Config.default 5 5, compareFlags Config.default 6 5, compareFlags Config.default 5 6,
      compareFlags Config.default 255 0, compareFlags Config.default 0 255] = [1#8, 2#8, 4#8, 2#8, 4#8] := by decide

/-! ### The cycle, reset, the loader and the interface -/

/-- V1, V10 and V11: unknown opcodes, at the top of memory before any operand fetch. -/
theorem test_unknown_opcode :
    (after State.reset).map (fun t => (t.err, t.status)) = some (some (.unknownInstruction 0#8), .faulted) ∧
    (after (place 254 [0xFF])).map (·.err) = some (some (.unknownInstruction 0xFF#8)) ∧
    (after (place 255 [0x00])).map (·.err) = some (some (.unknownInstruction 0x00#8)) := by decide

/-- V12 and V13: no step in Halted or Faulted. -/
theorem test_no_step :
    step { place 0 [0x01] with run := false } = .fault .halted ∧
    step { place 0 [0x01] with err := some (.unknownInstruction 0#8) } = .fault .faulted := ⟨rfl, rfl⟩

/-- R23, R172: the reset state. -/
theorem test_reset :
    State.reset.x.toList = [0#8, 0#8, 0#8, 0#8, 0#8, 0#8, 0#8, 0xF4#8] ∧ State.reset.pc = 0#8 ∧
    State.reset.status = .running ∧ State.reset.mem.wf = true := by decide

/-- V90's last byte and V91's 257th, V92, V93, and a small image. -/
theorem test_loader :
    (loadFrom State.reset 255 [0x01]).map (·.mem.read 255) = some 0x01#8 ∧ loadFrom State.reset 255 [0x01, 0x01] = none ∧
    State.init [256] = none ∧ State.init [] = some State.reset ∧
    (State.init [1, 0, 255]).map (fun t => (t.mem.read 0, t.mem.read 1, t.mem.read 2, t.mem.read 3)) =
      some (1#8, 0#8, 255#8, 0#8) := by decide

/-- Lines of P1's program file, a blank line and a comment-only line (R62), a malformed line (R150), a value above 255. -/
theorem test_program_lines :
    parseLine "10000010 # LDI R0 8".toList = some (some 0x82) ∧ parseLine "00001000".toList = some (some 8) ∧
    parseLine "   ".toList = some none ∧ parseLine "# LDI".toList = some none ∧ parseLine "10200000".toList = none ∧
    parseLine "100000000".toList = some (some 256) ∧ State.boot ["100000000".toList] = none := by decide

/-- R126's example, R143's codes, R129's ten bits for -1 and 256. -/
theorem test_interface :
    renderOut [72#8, 0#8] = "72\n0\n".toList ∧
    [errCode none, errCode (some (.unknownInstruction 0#8)), errCode (some (.outOfRangeAddress 256)),
      errCode (some (.invalidRegisterIndex 8#8))] = [0#2, 1#2, 2#2, 3#2] ∧
    (State.ports { State.reset with err := some (.outOfRangeAddress (-1)) }).errInfo = 0b1111111111#10 ∧
    (State.ports { State.reset with err := some (.outOfRangeAddress 256) }).errInfo = 0b0100000000#10 := by decide

/-- R60's listing of the source's scenario. -/
theorem test_listing :
    listing (.ldi 0 8) = "LDI R0 8".toList ∧ listing (.mul 0 1) = "MUL R0 R1".toList ∧
    listing (.prn 0) = "PRN R0".toList ∧ listing .hlt = "HLT".toList := by decide

/-! ### Witnesses: the hypotheses of each statement can be met -/

/-- A second valid configuration: the opcode bytes 1 to 13, the flags in bits 7, 6 and 5. -/
def otherConfig : Config where
  opc
    | .ldi => 1
    | .prn => 2
    | .hlt => 3
    | .mul => 4
    | .add => 5
    | .push => 6
    | .pop => 7
    | .call => 8
    | .ret => 9
    | .cmp => 10
    | .jmp => 11
    | .jeq => 12
    | .jne => 13
  flE := 7
  flG := 6
  flL := 5

theorem test_witness_DecodeOfEncodeGivesTheInstruction : Config.default.Valid ∧ otherConfig.Valid := by
  refine ⟨Config.default_valid, ?_, by unfold Config.FlagsDistinct; decide⟩
  intro m n
  cases m <;> cases n <;> decide

theorem test_witness_DecodedBytesAreTheEncoding :
    decode Config.default [0x82#8, 0#8, 8#8, 0xFF#8] = .ok (.ldi 0 8, [0xFF#8]) := by decide

theorem test_witness_ExactlyThirteenOpcodeBytesAreKnown : Config.default.Valid := Config.default_valid

/-- At address 0, at 254 with a two-byte instruction, at 255 with a one-byte one. -/
theorem test_witness_StepRunsTheDecodedInstruction :
    ((place 254 [0x54, 3]).status = .running ∧ decode Config.default (place 254 [0x54, 3]).window = .ok (.jmp 3, [])) ∧
    ((place 255 [0x11]).status = .running ∧ decode Config.default (place 255 [0x11]).window = .ok (.ret, [])) := by
  decide

theorem test_witness_EveryConfigurationRunsTheSameMeanings_step :
    otherConfig.Valid ∧ (place 253 [10, 0, 1]).status = .running ∧
      (place 253 [10, 0, 1]).Holds (encode otherConfig (.cmp 0 1)) := by
  refine ⟨test_witness_DecodeOfEncodeGivesTheInstruction.2, by decide, by decide, ?_⟩
  intro k v h
  match k with
  | 0 | 1 | 2 => rw [← Option.some.inj h]; decide
  | k + 3 => exact absurd h (by simp [encode])

theorem test_witness_EveryConfigurationRunsTheSameMeanings_flags :
    Config.default.flE = { otherConfig with flE := 0, flG := 1, flL := 2 }.flE ∧
    Config.default.flG = { otherConfig with flE := 0, flG := 1, flL := 2 }.flG ∧
    Config.default.flL = { otherConfig with flE := 0, flG := 1, flL := 2 }.flL ∧
    Config.default.opc .ldi ≠ otherConfig.opc .ldi := by decide

theorem test_witness_StepExistsExactlyWhileRunning :
    (State.reset.run = true ∧ State.reset.err = none) ∧
    { State.reset with run := false }.status = .halted ∧
    { State.reset with err := some (.unknownInstruction 0#8) }.status = .faulted := by decide

theorem test_witness_UnknownOpcodeByteFaults :
    State.reset.status = .running ∧ (∀ m, Config.default.opc m ≠ State.reset.codeByte 0) ∧
      ∃ t, step State.reset = .next t ∧ t.err = some (.unknownInstruction 0#8) :=
  ⟨rfl, by intro m; cases m <;> decide, _, rfl, rfl⟩

/-- A two-byte instruction at 255, a three-byte one at 254 and at 255. -/
theorem test_witness_OperandFetchPastTheTopFaults :
    ((place 255 [0x47]).status = .running ∧ (place 255 [0x47]).codeByte 0 = Config.default.opc .prn ∧
      256 < (place 255 [0x47]).pc.toNat + Mnemonic.length .prn) ∧
    ((place 254 [0x82, 0]).status = .running ∧ (place 254 [0x82, 0]).codeByte 0 = Config.default.opc .ldi ∧
      256 < (place 254 [0x82, 0]).pc.toNat + Mnemonic.length .ldi) ∧
    ((place 255 [0xA7]).status = .running ∧ (place 255 [0xA7]).codeByte 0 = Config.default.opc .cmp ∧
      256 < (place 255 [0xA7]).pc.toNat + Mnemonic.length .cmp) := by decide

theorem test_witness_BadRegisterOperandFaults_bad :
    Instr.firstBadReg (.prn 8) = some 8#8 ∧ Instr.firstBadReg (.mul 9 10) = some 9#8 ∧
    Instr.firstBadReg (.cmp 7 255) = some 255#8 := by decide

theorem test_witness_BadRegisterOperandFaults_good :
    Instr.wellFormed (.add 7 0) = true ∧ State.reset.err = none ∧ ∃ t, exec (.add 7 0) State.reset = .next t :=
  ⟨rfl, rfl, _, rfl⟩

theorem test_witness_FaultWritesErrOnly : ∃ t, step State.reset = .next t ∧ t.err ≠ none :=
  ⟨_, rfl, by decide⟩

theorem test_witness_NoReturnFromAFault_stop :
    { State.reset with run := false }.status = .halted ∧
    { State.reset with err := some (.outOfRangeAddress 256) }.status = .faulted ∧
    Reaches { State.reset with run := false } { State.reset with run := false } :=
  ⟨rfl, rfl, .start⟩

theorem test_witness_NoReturnFromAFault_exec :
    State.reset.err = none ∧ (∃ t, exec (.prn 0) State.reset = .next t ∧ t.err = none) ∧
    ∃ t, exec (.prn 8) State.reset = .next t ∧ t.err ≠ none :=
  ⟨rfl, ⟨_, rfl, rfl⟩, _, rfl, by decide⟩

/-- The hypotheses of an instruction's whole step: a Running machine with the mnemonic's opcode byte at `pc`. -/
def Ready (s : State) (m : Mnemonic) : Prop := s.status = .running ∧ s.codeByte 0 = Config.default.opc m

theorem test_witness_LdiLoadsTheImmediate :
    ((7 : Byte).toNat ≤ 7 ∧ (place 252 [0x82, 7, 5]).pc.toNat ≤ 252) ∧ Ready (place 255 [0x82]) .ldi ∧
    Ready (place 254 [0x82, 0]) .ldi ∧ Ready (place 253 [0x82, 8, 5]) .ldi ∧ Ready (place 253 [0x82, 7, 5]) .ldi ∧
    Ready (place 252 [0x82, 7, 5]) .ldi := by unfold Ready; decide

theorem test_witness_PrnEmitsTheRegister :
    ((7 : Byte).toNat ≤ 7 ∧ (place 253 [0x47, 7]).pc.toNat ≤ 253) ∧ Ready (place 255 [0x47]) .prn ∧
    Ready (place 254 [0x47, 8]) .prn ∧ Ready (place 254 [0x47, 7]) .prn ∧ Ready (place 253 [0x47, 7]) .prn := by
  unfold Ready; decide

theorem test_witness_HltClearsRunAndAdvances :
    (place 254 [0x01]).pc.toNat ≤ 254 ∧ Ready (place 255 [0x01]) .hlt ∧ Ready (place 254 [0x01]) .hlt := by
  unfold Ready; decide

theorem test_witness_MulWritesTheProductModulo256 :
    ((7 : Byte).toNat ≤ 7 ∧ (0 : Byte).toNat ≤ 7 ∧ (place 252 [0xA2, 7, 0]).pc.toNat ≤ 252) ∧
    Ready (place 255 [0xA2]) .mul ∧ Ready (place 254 [0xA2, 8]) .mul ∧ Ready (place 253 [0xA2, 8, 9]) .mul ∧
    Ready (place 253 [0xA2, 7, 8]) .mul ∧ Ready (place 253 [0xA2, 7, 7]) .mul ∧ Ready (place 252 [0xA2, 7, 0]) .mul := by
  unfold Ready; decide

theorem test_witness_AddWritesTheSumModulo256 :
    ((7 : Byte).toNat ≤ 7 ∧ (0 : Byte).toNat ≤ 7 ∧ (place 252 [0xA0, 7, 0]).pc.toNat ≤ 252) ∧
    Ready (place 255 [0xA0]) .add ∧ Ready (place 254 [0xA0, 8]) .add ∧ Ready (place 253 [0xA0, 8, 9]) .add ∧
    Ready (place 253 [0xA0, 7, 8]) .add ∧ Ready (place 253 [0xA0, 7, 7]) .add ∧ Ready (place 252 [0xA0, 7, 0]) .add := by
  unfold Ready; decide

/-- Operands equal, the first greater, the first less, each at the last address. -/
theorem test_witness_CmpSetsExactlyOneFlag :
    ((0 : Byte).toNat ≤ 7 ∧ (7 : Byte).toNat ≤ 7 ∧ (place 252 [0xA7, 0, 7]).pc.toNat ≤ 252) ∧
    Ready (place 255 [0xA7]) .cmp ∧ Ready (place 254 [0xA7, 8]) .cmp ∧ Ready (place 253 [0xA7, 8, 9]) .cmp ∧
    Ready (place 253 [0xA7, 7, 8]) .cmp ∧ Ready (place 253 [0xA7, 7, 7]) .cmp ∧ Ready (place 252 [0xA7, 0, 1]) .cmp ∧
    Ready (place 252 [0xA7, 7, 0]) .cmp ∧ Ready (place 252 [0xA7, 0, 7]) .cmp := by unfold Ready; decide

/-- The stack pointer at 1 and at 0, register 7 and another as operand. -/
theorem test_witness_PushStoresBelowTheStackPointer :
    (let s := reg (place 253 [0x45, 7]) 7 1
     s.mem.wf = true ∧ (7 : Byte).toNat ≤ 7 ∧ 1 ≤ s.x[7].toNat ∧ s.pc.toNat ≤ 253) ∧
    Ready (place 255 [0x45]) .push ∧ Ready (place 254 [0x45, 8]) .push ∧ Ready (reg (place 254 [0x45, 7]) 7 0) .push ∧
    Ready (place 254 [0x45, 0]) .push ∧ Ready (reg (place 253 [0x45, 0]) 7 1) .push := by unfold Ready; decide

/-- The pointer at 254 and at 255, and register 7 as operand with 254 and with 255 in its cell. -/
theorem test_witness_PopLoadsFromTheStackPointer :
    (let s := reg (place 253 [0x46, 0]) 7 254
     (0 : Byte).toNat ≤ 7 ∧ s.pc.toNat ≤ 253 ∧
       (if (0 : Byte) = 7#8 then s.mem.read s.x[7].toNat else s.x[7]).toNat ≤ 254) ∧
    (let s := cell (place 253 [0x46, 7]) 0xF4 254
     (7 : Byte).toNat ≤ 7 ∧ s.pc.toNat ≤ 253 ∧
       (if (7 : Byte) = 7#8 then s.mem.read s.x[7].toNat else s.x[7]).toNat ≤ 254) ∧
    Ready (place 255 [0x46]) .pop ∧ Ready (place 254 [0x46, 8]) .pop ∧ Ready (reg (place 254 [0x46, 0]) 7 255) .pop ∧
    Ready (cell (place 253 [0x46, 7]) 0xF4 255) .pop ∧ Ready (place 254 [0x46, 0]) .pop ∧
    Ready (reg (place 253 [0x46, 0]) 7 254) .pop := by unfold Ready; decide

theorem test_witness_CallSavesTheReturnAddress :
    (let s := reg (place 253 [0x50, 7]) 7 1
     s.mem.wf = true ∧ (7 : Byte).toNat ≤ 7 ∧ 1 ≤ s.x[7].toNat ∧ s.pc.toNat ≤ 253) ∧
    Ready (place 255 [0x50]) .call ∧ Ready (place 254 [0x50, 8]) .call ∧ Ready (reg (place 254 [0x50, 7]) 7 0) .call ∧
    Ready (place 254 [0x50, 0]) .call ∧ Ready (reg (place 253 [0x50, 0]) 7 1) .call := by unfold Ready; decide

theorem test_witness_RetReturnsToTheSavedAddress :
    (reg (place 255 [0x11]) 7 254).x[7].toNat ≤ 254 ∧ Ready (reg (place 255 [0x11]) 7 254) .ret ∧
    Ready (reg (place 0 [0x11]) 7 255) .ret := by unfold Ready; decide

theorem test_witness_JmpGoesToTheRegister :
    (7 : Byte).toNat ≤ 7 ∧ Ready (place 255 [0x54]) .jmp ∧ Ready (place 254 [0x54, 8]) .jmp ∧
    Ready (place 254 [0x54, 7]) .jmp := by unfold Ready; decide

theorem test_witness_JeqJumpsExactlyWhenEqual :
    ((7 : Byte).toNat ≤ 7 ∧ { State.reset with fl := 1#8 }.fl.getLsbD Config.default.flE = true) ∧
    (State.reset.fl.getLsbD Config.default.flE = false ∧ (place 253 [0x55, 7]).pc.toNat ≤ 253) ∧
    Ready (place 255 [0x55]) .jeq ∧ Ready (place 254 [0x55, 8]) .jeq ∧
    Ready { place 254 [0x55, 7] with fl := 1#8 } .jeq ∧ Ready (place 254 [0x55, 7]) .jeq ∧
    Ready (place 253 [0x55, 7]) .jeq := by unfold Ready; decide

theorem test_witness_JneJumpsExactlyWhenNotEqual :
    ((7 : Byte).toNat ≤ 7 ∧ State.reset.fl.getLsbD Config.default.flE = false) ∧
    ({ State.reset with fl := 1#8 }.fl.getLsbD Config.default.flE = true ∧ (place 253 [0x56, 7]).pc.toNat ≤ 253) ∧
    Ready (place 255 [0x56]) .jne ∧ Ready (place 254 [0x56, 8]) .jne ∧
    Ready { place 254 [0x56, 7] with fl := 1#8 } .jne ∧ Ready (place 254 [0x56, 7]) .jne ∧
    Ready { place 253 [0x56, 7] with fl := 1#8 } .jne := by unfold Ready; decide

/-- With equal registers (0 and 1) and with unequal ones (0 and 7), at the last address. -/
theorem test_witness_CompareThenJumpDecidesEquality :
    ((0 : Byte).toNat ≤ 7 ∧ (1 : Byte).toNat ≤ 7 ∧ (7 : Byte).toNat ≤ 7 ∧ (place 250 []).pc.toNat ≤ 250) ∧
    ((place 250 []).x[regOf 0] = (place 250 []).x[regOf 1] ∧ ∃ t, exec (.cmp 0 1) (place 250 []) = .next t) ∧
    (place 250 []).x[regOf 0] ≠ (place 250 []).x[regOf 7] ∧ ∃ t, exec (.cmp 0 7) (place 250 []) = .next t :=
  ⟨by decide, ⟨by decide, _, rfl⟩, by decide, _, rfl⟩

/-- PUSH R7 at the top of memory, the POP in the state the PUSH left, at another address. -/
theorem test_witness_PushThenPopRestores :
    (place 253 []).mem.wf = true ∧ (7 : Byte).toNat ≤ 7 ∧ 1 ≤ (place 253 []).x[7].toNat ∧ (place 253 []).pc.toNat ≤ 253 ∧
    ∃ t, exec (.push 7) (place 253 []) = .next t ∧ { t with pc := 253 }.pc.toNat ≤ 253 ∧
      { t with pc := 253 }.x[7] = t.x[7] ∧ { t with pc := 253 }.mem.read t.x[7].toNat = t.mem.read t.x[7].toNat :=
  ⟨by decide, by decide, by decide, by decide, _, rfl, by decide, rfl, rfl⟩

theorem test_witness_CallThenRetReturns :
    (place 253 []).mem.wf = true ∧ (1 : Byte).toNat ≤ 7 ∧ 1 ≤ (place 253 []).x[7].toNat ∧ (place 253 []).pc.toNat ≤ 253 ∧
    ∃ t, exec (.call 1) (place 253 []) = .next t ∧ { t with pc := 15 }.x[7] = t.x[7] ∧
      { t with pc := 15 }.mem.read t.x[7].toNat = t.mem.read t.x[7].toNat :=
  ⟨by decide, by decide, by decide, by decide, _, rfl, rfl, rfl⟩

/-- P6's third step, with HLT's opcode byte in the pushed register; and the last address. -/
theorem test_witness_PushedByteIsFetchedByTheNextStep :
    let s := reg (reg (place 6 [0x45, 0]) 7 9) 0 1
    (s.mem.wf = true ∧ Ready s .push ∧ (s.codeByte 1).toNat < 7 ∧ s.pc.toNat ≤ 252 ∧ s.x[7].toNat = s.pc.toNat + 3 ∧
      s.x[regOf (s.codeByte 1)] = Config.default.opc .hlt) ∧
    let u := reg (place 252 [0x45, 6]) 7 255
    u.mem.wf = true ∧ Ready u .push ∧ (u.codeByte 1).toNat < 7 ∧ u.pc.toNat ≤ 252 ∧ u.x[7].toNat = u.pc.toNat + 3 := by
  unfold Ready; decide

/-- A completed HLT, and a HLT that faults. -/
theorem test_witness_OnlyHltClearsRun :
    (∃ t, step (place 0 [0x01]) = .next t ∧ t.run = false ∧ t.err = none) ∧
    ∃ t, step (place 255 [0x01]) = .next t ∧ t.err ≠ none :=
  ⟨⟨_, rfl, rfl, rfl⟩, _, rfl, by decide⟩

theorem test_witness_OnlyCmpWritesFlags : ∃ t, step (place 0 [0xA7, 0, 1]) = .next t ∧ t.fl ≠ (place 0 [0xA7, 0, 1]).fl :=
  ⟨_, rfl, by decide⟩

theorem test_witness_OutIsWrittenByPrnAndNeverRead : ∃ t, step (place 0 [0x47, 7]) = .next t ∧ t.out = [0xF4#8] :=
  ⟨_, rfl, by decide⟩

theorem test_witness_OnlyPushAndCallWriteMemory :
    (place 0 [0x50, 0]).mem.wf = true ∧
    ∃ t, step (place 0 [0x50, 0]) = .next t ∧ t.mem.read 0xF3 ≠ (place 0 [0x50, 0]).mem.read 0xF3 :=
  ⟨by decide, _, rfl, by decide⟩

/-- The two clauses: a first operand, and the stack pointer. -/
theorem test_witness_RegistersAreWrittenOnlyByTheirWriters :
    (∃ t, step (place 0 [0x82, 3, 8]) = .next t ∧ t.x[(3 : RegNum)] ≠ (place 0 [0x82, 3, 8]).x[(3 : RegNum)]) ∧
    ∃ t, step (place 0 [0x11]) = .next t ∧ t.x[(7 : RegNum)] ≠ (place 0 [0x11]).x[(7 : RegNum)] :=
  ⟨⟨_, rfl, by decide⟩, _, rfl, by decide⟩

theorem test_witness_InvariantKeptByEveryStep : State.reset.Inv Config.default ∧ ∃ t, step State.reset = .next t :=
  ⟨⟨rfl, .inl rfl, by simp [State.reset], by simp [State.reset]⟩, _, rfl⟩

theorem test_witness_InvariantInEveryRun :
    ∃ s t, State.init [0x01] = some s ∧ Reaches s t ∧ t.run = false :=
  ⟨_, _, rfl, .more .start rfl, rfl⟩

theorem test_witness_NormalEndIsACompletedHlt :
    (place 254 [0x01]).status = .running ∧ ∃ t, EndsNormally (place 254 [0x01]) t :=
  ⟨rfl, _, .more .start rfl, rfl⟩

/-- Two layouts of the flags and two states that agree on E only. -/
theorem test_witness_OnlyTheEqualFlagIsObservable :
    Config.default.opc = { Config.default with flE := 7, flG := 6, flL := 5 }.opc ∧ Config.default.FlagsDistinct ∧
    Config.FlagsDistinct { Config.default with flE := 7, flG := 6, flL := 5 } ∧
    SameButFlags Config.default { Config.default with flE := 7, flG := 6, flL := 5 }
      { place 0 [0x55, 1] with fl := 1#8 } { place 0 [0x55, 1] with fl := 0xFF#8 } :=
  ⟨rfl, by unfold Config.FlagsDistinct; decide, by unfold Config.FlagsDistinct; decide, rfl, by decide⟩

/-- -1, 0, 255 and 256: the two clauses at the values where they meet. -/
theorem test_witness_AddressDecoderChecksTheRange :
    State.reset.mem.wf = true ∧ (0 ≤ (0 : Int) ∧ (0 : Int) ≤ 255) ∧ (0 ≤ (255 : Int) ∧ (255 : Int) ≤ 255) ∧
    ¬(0 ≤ (-1 : Int) ∧ (-1 : Int) ≤ 255) ∧ ¬(0 ≤ (256 : Int) ∧ (256 : Int) ≤ 255) := by decide

theorem test_witness_EqualContentsAreEqualMemories :
    Memory.wf [(0xF3, 5#8)] = true ∧ Memory.wf (Memory.write [] 0xF3 5#8) = true ∧
    ∀ a, a < 256 → Memory.read [(0xF3, 5#8)] a = Memory.read (Memory.write [] 0xF3 5#8) a :=
  ⟨by decide, by decide, fun _ _ => rfl⟩

/-- Images of 0, 256 and 257 values, and a value of 255 and of 256. -/
theorem test_witness_InitialStateOfAnImage :
    ([] : List Nat).length ≤ 256 ∧ ((List.replicate 256 255).length ≤ 256 ∧ ∀ v ∈ List.replicate 256 255, v ≤ 255) ∧
    256 < (List.replicate 257 1).length ∧ ∃ v ∈ [256], 255 < v := by
  refine ⟨by simp, ⟨List.length_replicate.le, fun v h => ?_⟩, ?_, 256, by simp, by simp⟩
  · rw [List.eq_of_mem_replicate h]
  · rw [List.length_replicate]; decide

theorem test_witness_ProgramFileLoadsItsLiterals : ∀ v ∈ [0x82, 0, 255], v ≤ 255 := by decide

/-- A Running, a Halted and a Faulted state, with each fault, at the edges of its information value. -/
theorem test_witness_PortsShowTheStatusAndTheFault :
    (State.reset.run = true ∧ State.reset.err = none) ∧
    ({ State.reset with run := false }.run = false ∧ { State.reset with run := false }.err = none) ∧
    FaultValue.Legal Config.default (.outOfRangeAddress (-1)) ∧ FaultValue.Legal Config.default (.outOfRangeAddress 256) ∧
    FaultValue.Legal Config.default (.unknownInstruction 0xFF#8) ∧
    FaultValue.Legal Config.default (.invalidRegisterIndex 8#8) :=
  ⟨by decide, by decide, .inl rfl, .inr rfl, by intro m; cases m <;> decide, by unfold FaultValue.Legal; decide⟩

/-- A Running, a Halted and a Faulted state; the latter two reach themselves. -/
theorem test_witness_NoComponentChangesOutsideRunning :
    (State.reset.run = true ∧ State.reset.err = none ∧ ∃ t, step State.reset = .next t) ∧
    ¬({ State.reset with run := false }.run = true ∧ { State.reset with run := false }.err = none) ∧
    ¬({ State.reset with err := some (.outOfRangeAddress 256) }.run = true ∧
      { State.reset with err := some (.outOfRangeAddress 256) }.err = none) ∧
    Reaches { State.reset with run := false } { State.reset with run := false } :=
  ⟨⟨rfl, rfl, _, rfl⟩, by decide, by decide, .start⟩

/-- Each opcode with operands at the last address where all three bytes exist. -/
theorem test_witness_OperandsStandInTheOrderListed :
    (place 253 []).pc.toNat ≤ 253 ∧
    Ready (place 253 [0x82, 7, 5]) .ldi ∧ Ready (place 253 [0x47, 7]) .prn ∧ Ready (place 253 [0xA2, 7, 0]) .mul ∧
    Ready (place 253 [0xA0, 7, 0]) .add ∧ Ready (place 253 [0x45, 7]) .push ∧ Ready (place 253 [0x46, 7]) .pop ∧
    Ready (place 253 [0x50, 7]) .call ∧ Ready (place 253 [0xA7, 7, 0]) .cmp ∧ Ready (place 253 [0x54, 7]) .jmp ∧
    Ready (place 253 [0x55, 7]) .jeq ∧ Ready (place 253 [0x56, 7]) .jne := by unfold Ready; decide

end Sys2Proof.Tests
end

section
/-!
SUPPORT and PROOFS. The family 10_state.md: what each component of the state is written and read by. The execute stage is
put into one normal form for all thirteen instructions (`execWith_eq`): the fault the instruction raises, or the state it
completes in. The frame statements are read off the completed state, component by component, and the two statements about
what no instruction reads are congruences of the same normal form.
-/

namespace Sys2Proof.Machine

/-! ### One normal form for the execute stage -/

/-- The address past the top of memory that falling through `n` bytes would reach (spec/10_state.md R15). -/
def pastTop (s : State) (n : Nat) : Option Int :=
  if 255 < s.pc.toNat + n then some ((s.pc.toNat + n : Nat) : Int) else none

/-- The address the stack pointer would have after going below 0 (R13). -/
def spBelow (s : State) : Option Int := if (s.getReg spReg).toNat = 0 then some (-1) else none

/-- The address the stack pointer would have after going above 255 (R13). -/
def spAbove (s : State) : Option Int := if (s.getReg spReg).toNat = 255 then some 256 else none

/-- The first address out of range that an instruction with good register operands comes to (spec/60_exceptions.md R142,
R145). -/
def rangeFault (c : Config) (s : State) : Instr → Option Int
  | .ldi _ _ | .mul _ _ | .add _ _ | .cmp _ _ => pastTop s 3
  | .prn _ => pastTop s 2
  | .hlt => pastTop s 1
  | .push _ | .call _ => (spBelow s).or (pastTop s 2)
  | .pop a => (spAbove (s.setReg (regOf a) (s.mem.read (s.getReg spReg).toNat))).or (pastTop s 2)
  | .ret => spAbove s
  | .jmp _ => none
  | .jeq _ => if s.flagE c then none else pastTop s 2
  | .jne _ => if s.flagE c then pastTop s 2 else none

/-- The fault an instruction raises: of its register operands, else of the addresses it comes to (R145). -/
def instrFault (c : Config) (s : State) (i : Instr) : Option FaultValue :=
  (i.firstBadReg.map .invalidRegisterIndex).or ((rangeFault c s i).map .outOfRangeAddress)

/-- The address `n` bytes after the program counter, as a byte. -/
def pcPlus (s : State) (n : Nat) : Byte := BitVec.ofNat 8 (s.pc.toNat + n)

/-- The state an instruction completes in, where it raises no fault. -/
def completed (c : Config) (s : State) : Instr → State
  | .ldi a b => jumpTo (s.setReg (regOf a) b) (pcPlus s 3)
  | .prn a => jumpTo (emit s (s.getReg (regOf a))) (pcPlus s 2)
  | .hlt => jumpTo { s with run := false } (pcPlus s 1)
  | .mul a b => jumpTo (s.setReg (regOf a) (aluMul (s.getReg (regOf a)) (s.getReg (regOf b)))) (pcPlus s 3)
  | .add a b => jumpTo (s.setReg (regOf a) (aluAdd (s.getReg (regOf a)) (s.getReg (regOf b)))) (pcPlus s 3)
  | .push a =>
    jumpTo (afterPush s (if regOf a = 7 then BitVec.ofNat 8 ((s.getReg spReg).toNat - 1) else s.getReg (regOf a)))
      (pcPlus s 2)
  | .pop a =>
    let u := s.setReg (regOf a) (s.mem.read (s.getReg spReg).toNat)
    jumpTo (u.setReg spReg (BitVec.ofNat 8 ((u.getReg spReg).toNat + 1))) (pcPlus s 2)
  | .call a =>
    jumpTo (afterPush s (pcPlus s 2))
      (if regOf a = 7 then BitVec.ofNat 8 ((s.getReg spReg).toNat - 1) else s.getReg (regOf a))
  | .ret =>
    jumpTo (s.setReg spReg (BitVec.ofNat 8 ((s.getReg spReg).toNat + 1))) (s.mem.read (s.getReg spReg).toNat)
  | .cmp a b => jumpTo { s with fl := compareFlags c (s.getReg (regOf a)) (s.getReg (regOf b)) } (pcPlus s 3)
  | .jmp a => jumpTo s (s.getReg (regOf a))
  | .jeq a => jumpTo s (if s.flagE c then s.getReg (regOf a) else pcPlus s 2)
  | .jne a => jumpTo s (if s.flagE c then pcPlus s 2 else s.getReg (regOf a))

/-- The outcome from `s`: the raised fault, or the completed state `t` (R74, R144). -/
def answer (s : State) (f : Option FaultValue) (t : State) : Host.Outcome State Fault Refusal :=
  .next (f.elim t (raise s))

/-- The register operand of a one-register form is checked first (spec/40_cycle.md R73). -/
theorem answer_oneReg (s t : State) (a : Byte) (r : Option FaultValue) :
    answer s ((([a].find? fun v => 7 < v.toNat).map .invalidRegisterIndex).or r) t =
      if 7 < a.toNat then .next (raise s (.invalidRegisterIndex a)) else answer s r t := by
  by_cases h : 7 < a.toNat <;> simp [h, answer]

/-- The register operands of a two-register form are checked first, `a` before `b` (R73). -/
theorem answer_twoRegs (s t : State) (a b : Byte) (r : Option FaultValue) :
    answer s ((([a, b].find? fun v => 7 < v.toNat).map .invalidRegisterIndex).or r) t =
      if 7 < a.toNat then .next (raise s (.invalidRegisterIndex a))
      else if 7 < b.toNat then .next (raise s (.invalidRegisterIndex b)) else answer s r t := by
  by_cases h : 7 < a.toNat
  · simp [h, answer]
  · rw [List.find?_cons_of_neg (by simpa using h), answer_oneReg, if_neg h]

/-- One address that may be out of range. -/
theorem answer_range (s t : State) (p : Prop) [Decidable p] (x : Int) :
    answer s ((if p then some x else none).map .outOfRangeAddress) t =
      if p then .next (raise s (.outOfRangeAddress x)) else .next t := by
  split <;> rfl

/-- An address that may be out of range, and the faults after it. -/
theorem answer_range_or (s t : State) (p : Prop) [Decidable p] (x : Int) (r : Option Int) :
    answer s (((if p then some x else none).or r).map .outOfRangeAddress) t =
      if p then .next (raise s (.outOfRangeAddress x)) else answer s (r.map .outOfRangeAddress) t := by
  split <;> rfl

/-- The faults of a one-register form, in their order. -/
theorem answer_instrFault_oneReg (c : Config) (s t : State) {i : Instr} {a : Byte} (h : i.regOperands = [a]) :
    answer s (instrFault c s i) t =
      if 7 < a.toNat then .next (raise s (.invalidRegisterIndex a))
      else answer s ((rangeFault c s i).map .outOfRangeAddress) t := by
  rw [instrFault, Instr.firstBadReg, h, answer_oneReg]

/-- The faults of a two-register form, in their order. -/
theorem answer_instrFault_twoRegs (c : Config) (s t : State) {i : Instr} {a b : Byte} (h : i.regOperands = [a, b]) :
    answer s (instrFault c s i) t =
      if 7 < a.toNat then .next (raise s (.invalidRegisterIndex a))
      else if 7 < b.toNat then .next (raise s (.invalidRegisterIndex b))
      else answer s ((rangeFault c s i).map .outOfRangeAddress) t := by
  rw [instrFault, Instr.firstBadReg, h, answer_twoRegs]

/-- The execute stage of every instruction under every configuration: its fault, or the state it completes in. -/
theorem execWith_eq (c : Config) (i : Instr) (s : State) :
    execWith c i s = answer s (instrFault c s i) (completed c s i) := by
  cases i with
  | ldi a b =>
    rw [answer_instrFault_oneReg (h := rfl), rangeFault, pastTop, answer_range]
    exact execLdi_eq a b s
  | prn a =>
    rw [answer_instrFault_oneReg (h := rfl), rangeFault, pastTop, answer_range]
    exact execPrn_eq a s
  | hlt => exact (execHlt_eq s).trans (answer_range s _ _ _).symm
  | mul a b =>
    rw [answer_instrFault_twoRegs (h := rfl), rangeFault, pastTop, answer_range]
    exact execMul_eq a b s
  | add a b =>
    rw [answer_instrFault_twoRegs (h := rfl), rangeFault, pastTop, answer_range]
    exact execAdd_eq a b s
  | push a =>
    rw [answer_instrFault_oneReg (h := rfl), rangeFault, spBelow, pastTop, answer_range_or, answer_range]
    exact execPush_eq a s
  | pop a =>
    rw [answer_instrFault_oneReg (h := rfl), rangeFault, spAbove, pastTop, answer_range_or, answer_range]
    exact execPop_eq a s
  | call a =>
    rw [answer_instrFault_oneReg (h := rfl), rangeFault, spBelow, pastTop, answer_range_or, answer_range]
    simp only [show 255 < s.pc.toNat + 2 ↔ 253 < s.pc.toNat by omega]
    exact execCall_eq a s
  | ret => exact (execRet_eq s).trans (answer_range s _ _ _).symm
  | cmp a b =>
    rw [answer_instrFault_twoRegs (h := rfl), rangeFault, pastTop, answer_range]
    exact execCmpWith_eq a b s c
  | jmp a =>
    rw [answer_instrFault_oneReg (h := rfl)]
    exact execJmp_eq a s
  | jeq a =>
    rw [answer_instrFault_oneReg (h := rfl), rangeFault, completed]
    refine (execJeqWith_eq a s c).trans ?_
    cases s.flagE c
    · exact congrArg _ (answer_range s _ _ _).symm
    · rfl
  | jne a =>
    rw [answer_instrFault_oneReg (h := rfl), rangeFault, completed]
    refine (execJneWith_eq a s c).trans ?_
    cases s.flagE c
    · rfl
    · exact congrArg _ (answer_range s _ _ _).symm

/-! ### What a completed instruction writes -/

section
variable (s : State) (v : Byte)

@[simp] theorem getReg_jumpTo (r : RegNum) : (jumpTo s v).getReg r = s.getReg r := rfl

/-- Storing at the top of the stack moves the stack pointer and leaves the other registers alone. -/
theorem getReg_afterPush_other {r : RegNum} (h : spReg ≠ r) : (afterPush s v).getReg r = s.getReg r :=
  getReg_setReg_other s spReg r _ h

end

/-- No instruction that completes touches `ERR` (R147). -/
@[simp] theorem completed_err (c : Config) (s : State) (i : Instr) : (completed c s i).err = s.err := by
  cases i <;> rfl

/-- Only HLT writes `RUN` (R18). -/
theorem completed_run (c : Config) (s : State) (i : Instr) :
    (completed c s i).run = if i.mnemonic = .hlt then false else s.run := by
  cases i <;> rfl

/-- Only CMP writes `FL` (R16). -/
theorem completed_fl (c : Config) (s : State) (i : Instr) :
    (completed c s i).fl = s.fl ∨
      i.mnemonic = .cmp ∧ ∃ va vb, (completed c s i).fl = compareFlags c va vb := by
  cases i with
  | cmp a b => exact .inr ⟨rfl, _, _, rfl⟩
  | _ => exact .inl rfl

/-- The bytes an instruction emits when it completes (R20, R81). -/
def emitted (s : State) : Instr → List Byte
  | .prn a => [s.getReg (regOf a)]
  | _ => []

/-- `OUT` is appended to and not read: with any history `o` in it the completed state differs in `OUT` alone (R20). -/
theorem completed_with_out (c : Config) (s : State) (o : List Byte) (i : Instr) :
    completed c { s with out := o } i = { completed c s i with out := o ++ emitted s i } := by
  cases i with
  | prn a => rfl
  | _ => simp only [emitted, List.append_nil]; rfl

/-- The bytes an instruction appends to `OUT`. -/
theorem completed_out (c : Config) (s : State) (i : Instr) : (completed c s i).out = s.out ++ emitted s i :=
  congrArg State.out (completed_with_out c s s.out i)

/-- Only PUSH and CALL write memory, in the cell below the stack pointer (R10, R33). -/
theorem completed_mem (c : Config) (s : State) (i : Instr) :
    (completed c s i).mem = s.mem ∨
      (i.mnemonic = .push ∨ i.mnemonic = .call) ∧
        ∃ v, (completed c s i).mem = s.mem.write ((s.getReg spReg).toNat - 1) v := by
  cases i with
  | push a => exact .inr ⟨.inl rfl, _, rfl⟩
  | call a => exact .inr ⟨.inr rfl, _, rfl⟩
  | _ => exact .inl rfl

/-- The registers an instruction writes (R10, "written by"). -/
def writtenRegs : Instr → List RegNum
  | .ldi a _ | .mul a _ | .add a _ => [regOf a]
  | .pop a => [regOf a, spReg]
  | .push _ | .call _ | .ret => [spReg]
  | _ => []

/-- An instruction leaves every register alone that is not among those it writes. -/
theorem completed_getReg {i : Instr} {r : RegNum} (h : r ∉ writtenRegs i) (c : Config) (s : State) :
    (completed c s i).getReg r = s.getReg r := by
  cases i with
  | ldi a _ | mul a _ | add a _ =>
    have ha : regOf a ≠ r := (List.ne_of_not_mem_cons h).symm
    rw [completed, getReg_jumpTo, getReg_setReg_other _ _ _ _ ha]
  | pop a =>
    have ha : regOf a ≠ r := (List.ne_of_not_mem_cons h).symm
    have hsp : spReg ≠ r := (List.ne_of_not_mem_cons (List.not_mem_of_not_mem_cons h)).symm
    rw [completed, getReg_jumpTo, getReg_setReg_other _ _ _ _ hsp, getReg_setReg_other _ _ _ _ ha]
  | push _ | call _ =>
    have hsp : spReg ≠ r := (List.ne_of_not_mem_cons h).symm
    rw [completed, getReg_jumpTo, getReg_afterPush_other _ _ hsp]
  | ret =>
    have hsp : spReg ≠ r := (List.ne_of_not_mem_cons h).symm
    rw [completed, getReg_jumpTo, getReg_setReg_other _ _ _ _ hsp]
  | _ => rfl

/-- A written register is the first operand of LDI, MUL, ADD or POP, or the stack pointer under PUSH, POP, CALL or RET. -/
theorem writtenRegs_cases {i : Instr} {r : RegNum} (h : r ∈ writtenRegs i) (c : Config) :
    ((i.mnemonic = .ldi ∨ i.mnemonic = .mul ∨ i.mnemonic = .add ∨ i.mnemonic = .pop) ∧
        ∃ a, a ∈ i.regOperands ∧ (encode c i)[1]? = some a ∧ r = regOf a) ∨
      (r = spReg ∧ (i.mnemonic = .push ∨ i.mnemonic = .pop ∨ i.mnemonic = .call ∨ i.mnemonic = .ret)) := by
  cases i with
  | ldi a _ | mul a _ | add a _ =>
    exact .inl ⟨by simp [Instr.mnemonic], a, List.mem_cons_self, rfl, List.mem_singleton.mp h⟩
  | pop a =>
    obtain ha | hsp := List.mem_cons.mp h
    · exact .inl ⟨by simp [Instr.mnemonic], a, List.mem_cons_self, rfl, ha⟩
    · exact .inr ⟨List.mem_singleton.mp hsp, by simp [Instr.mnemonic]⟩
  | push _ | call _ | ret => exact .inr ⟨List.mem_singleton.mp h, by simp [Instr.mnemonic]⟩
  | _ => exact absurd h List.not_mem_nil

/-! ### What a step does -/

/-- The step from `s` raises `f`, in the fetch stage or in the execute stage (R145). -/
def Raises (c : Config) (s : State) (f : FaultValue) : Prop :=
  fetch c s = .error f ∨ ∃ i, fetch c s = .ok i ∧ instrFault c s i = some f

/-- The step from `s` completes the instruction `i`, which it fetched at the program counter. -/
def Completes (c : Config) (s : State) (i : Instr) : Prop := fetch c s = .ok i ∧ instrFault c s i = none

/-- A step that exists raises a fault or completes an instruction. -/
theorem raises_or_completes (c : Config) (s : State) : (∃ f, Raises c s f) ∨ ∃ i, Completes c s i := by
  cases hf : fetch c s with
  | error f => exact .inl ⟨f, .inl hf⟩
  | ok i =>
    cases hi : instrFault c s i with
    | some f => exact .inl ⟨f, .inr ⟨i, hf, hi⟩⟩
    | none => exact .inr ⟨i, hf, hi⟩

theorem stepWith_of_raises {c : Config} {s : State} {f : FaultValue} (hs : s.status = .running) (h : Raises c s f) :
    stepWith c s = .next (raise s f) := by
  obtain hf | ⟨i, hf, hi⟩ := h
  · exact cycle_of_fetch_error hs hf
  · rw [stepWith, cycle_of_fetch_ok hs hf, execWith_eq, hi]
    rfl

theorem stepWith_of_completes {c : Config} {s : State} {i : Instr} (hs : s.status = .running) (h : Completes c s i) :
    stepWith c s = .next (completed c s i) := by
  rw [stepWith, cycle_of_fetch_ok hs h.1, execWith_eq, h.2]
  rfl

/-- Everything a step of the default machine can do. -/
theorem step_raises_or_completes {s t : State} (h : step s = .next t) :
    s.status = .running ∧
      ((∃ f, Raises Config.default s f ∧ t = raise s f) ∨
        ∃ i, Completes Config.default s i ∧ t = completed Config.default s i) := by
  have hs := (step_cases h).1
  rw [← stepWith_default] at h
  refine ⟨hs, (raises_or_completes Config.default s).imp ?_ ?_⟩
  · rintro ⟨f, hf⟩
    exact ⟨f, hf, Host.Outcome.next.inj (h.symm.trans (stepWith_of_raises hs hf))⟩
  · rintro ⟨i, hi⟩
    exact ⟨i, hi, Host.Outcome.next.inj (h.symm.trans (stepWith_of_completes hs hi))⟩

section
variable {c : Config} {s : State} {i : Instr}

/-- The bytes at the program counter are those of the completed instruction (R51, R52, R57). -/
theorem Completes.codeByte_eq (h : Completes c s i) (hc : c.Valid) {k : Nat} {v : Byte}
    (hk : (encode c i)[k]? = some v) : s.codeByte k = v := by
  obtain ⟨-, hf⟩ | ⟨-, hf⟩ | ⟨j, hf, -, hbytes⟩ := fetch_cases s hc.1
  · exact nomatch hf.symm.trans h.1
  · exact nomatch hf.symm.trans h.1
  · obtain rfl : j = i := Except.ok.inj (hf.symm.trans h.1)
    exact hbytes k v hk

/-- One opcode byte, one mnemonic (R57). -/
theorem Completes.opcode_iff (h : Completes c s i) (hc : c.Valid) (m : Mnemonic) :
    s.codeByte 0 = c.opc m ↔ i.mnemonic = m := by
  rw [h.codeByte_eq hc (encode_shape c i).2]
  exact ⟨hc.1 _ _, fun hm => hm ▸ rfl⟩

/-- An instruction that completes has good register operands (R55). -/
theorem Completes.regOperands_le (h : Completes c s i) {a : Byte} (ha : a ∈ i.regOperands) : a.toNat ≤ 7 := by
  have good : i.firstBadReg = none := Option.map_eq_none_iff.mp (Option.or_eq_none_iff.mp h.2).1
  simpa using List.find?_eq_none.mp good a ha

/-- A PUSH or CALL that completes starts with the stack pointer above 0 (R13). -/
theorem Completes.sp_pos (h : Completes c s i) (hi : i.mnemonic = .push ∨ i.mnemonic = .call) :
    0 < (s.getReg spReg).toNat := by
  have inRange : rangeFault c s i = none := Option.map_eq_none_iff.mp (Option.or_eq_none_iff.mp h.2).2
  have order : rangeFault c s i = (spBelow s).or (pastTop s 2) := by
    cases i with
    | push _ | call _ => rfl
    | _ => simp [Instr.mnemonic] at hi
  have : spBelow s = none := (Option.or_eq_none_iff.mp (order ▸ inRange)).1
  simpa [spBelow, Nat.pos_iff_ne_zero] using this

/-- What a completed instruction emits: PRN the byte of its operand register, any other nothing. -/
theorem Completes.emitted_eq (h : Completes c s i) (hc : c.Valid) :
    emitted s i = if i.mnemonic = .prn then [s.getReg (regOf (s.codeByte 1))] else [] := by
  cases i with
  | prn a => rw [h.codeByte_eq hc (k := 1) (v := a) rfl]; rfl
  | _ => rfl

end

/-! ### What a step reads -/

/-- The decoder reads the opcode bytes and no other parameter (R57). -/
theorem decodeFrom_congr {c d : Config} (h : c.opc = d.opc) : decodeFrom c = decodeFrom d := by
  have : c.lookup = d.lookup := by funext op; rw [Config.lookup, Config.lookup, h]
  funext byteAt
  rw [decodeFrom, decodeFrom, this]

/-- The fetch stage reads `pc`, memory and the opcode bytes (R71, R72). -/
theorem fetch_congr {c d : Config} {s t : State} (h : c.opc = d.opc) (hpc : s.pc = t.pc) (hmem : s.mem = t.mem) :
    fetch c s = fetch d t := by
  have bytes : s.fetchByte = t.fetchByte := by
    funext k
    rw [fetchByte_eq, fetchByte_eq, State.codeByte, State.codeByte, hpc, hmem]
  rw [fetch, fetch, decodeFrom_congr h, bytes, hpc]

/-- The fault of an instruction depends on the registers, `pc`, memory and bit E alone. -/
theorem instrFault_congr {c d : Config} {s t : State} (hx : s.x = t.x) (hpc : s.pc = t.pc) (hmem : s.mem = t.mem)
    (hE : s.flagE c = t.flagE d) (i : Instr) : instrFault c s i = instrFault d t i := by
  have top : pastTop s = pastTop t := by funext n; rw [pastTop, pastTop, hpc]
  have below : spBelow s = spBelow t := by rw [spBelow, spBelow, getReg_congr hx]
  have above : ∀ {u v : State}, u.x = v.x → spAbove u = spAbove v := fun h => by rw [spAbove, spAbove, getReg_congr h]
  have load : ∀ a, (s.setReg (regOf a) (s.mem.read (s.getReg spReg).toNat)).x =
      (t.setReg (regOf a) (t.mem.read (t.getReg spReg).toNat)).x := fun a => by
    rw [State.setReg, State.setReg, getReg_congr hx, hmem, hx]
  have range : rangeFault c s i = rangeFault d t i := by
    cases i with
    | pop a => rw [rangeFault, rangeFault, top, above (load a)]
    | ret => exact above hx
    | push a | call a => rw [rangeFault, rangeFault, top, below]
    | jeq a | jne a => rw [rangeFault, rangeFault, top, hE]
    | _ => simp only [rangeFault, top]
  rw [instrFault, instrFault, range]

/-- Whether a step raises, and what, depends on the opcode bytes, the registers, `pc`, memory and bit E alone. -/
theorem Raises.congr {c d : Config} {s t : State} {f : FaultValue} (h : Raises c s f) (hopc : c.opc = d.opc)
    (hx : s.x = t.x) (hpc : s.pc = t.pc) (hmem : s.mem = t.mem) (hE : s.flagE c = t.flagE d) : Raises d t f := by
  unfold Raises at h ⊢
  simpa only [fetch_congr hopc hpc hmem, instrFault_congr hx hpc hmem hE] using h

/-- Which instruction a step completes depends on the same. -/
theorem Completes.congr {c d : Config} {s t : State} {i : Instr} (h : Completes c s i) (hopc : c.opc = d.opc)
    (hx : s.x = t.x) (hpc : s.pc = t.pc) (hmem : s.mem = t.mem) (hE : s.flagE c = t.flagE d) : Completes d t i :=
  ⟨fetch_congr hopc hpc hmem ▸ h.1, instrFault_congr hx hpc hmem hE i ▸ h.2⟩

/-! ### Flags no program can observe -/

/-- Two states related by `SameButFlags` are one state with two values of `FL` that agree on E. -/
theorem sameButFlags_iff {c d : Config} {s t : State} :
    SameButFlags c d s t ↔ ∃ g, t = { s with fl := g } ∧ s.flagE c = State.flagE d { s with fl := g } := by
  constructor
  · rintro ⟨h, hE⟩
    have : t = { s with fl := t.fl } := calc t = { ({ t with fl := 0#8 } : State) with fl := t.fl } := rfl
      _ = { s with fl := t.fl } := by rw [← h]
    exact ⟨t.fl, this, hE⟩
  · rintro ⟨g, rfl, hE⟩
    exact ⟨rfl, hE⟩

/-- With FL differing only where no program can see it, an instruction completes in states that differ only there. -/
theorem completed_sameButFlags {c d : Config} {s : State} {g : Byte} (hc : c.FlagsDistinct) (hd : d.FlagsDistinct)
    (hE : s.flagE c = State.flagE d { s with fl := g }) (i : Instr) :
    SameButFlags c d (completed c s i) (completed d { s with fl := g } i) := by
  cases i with
  | cmp a b => exact ⟨rfl, (compareFlags_flE hc _ _).trans (compareFlags_flE hd _ _).symm⟩
  | jeq a | jne a => exact ⟨by rw [completed, completed, hE]; rfl, hE⟩
  | _ => exact ⟨rfl, hE⟩

/-! ### The statements of the family -/

/-- Settles O39: both machines fetch the same instruction, which raises the same fault or completes alike on both; CMP
agrees on E whatever the layout. -/
theorem onlyTheEqualFlagIsObservable : Obligations.OnlyTheEqualFlagIsObservable := by
  intro c d s t hopc hc hd h
  obtain ⟨g, rfl, hE⟩ := sameButFlags_iff.mp h
  let t : State := { s with fl := g }
  cases hs : s.status with
  | halted => rw [stepWith, stepWith, cycle_halted hs, cycle_halted (s := t) hs]; rfl
  | faulted => rw [stepWith, stepWith, cycle_faulted hs, cycle_faulted (s := t) hs]; rfl
  | running =>
    obtain ⟨f, hf⟩ | ⟨i, hi⟩ := raises_or_completes c s
    · rw [stepWith_of_raises hs hf, stepWith_of_raises (s := t) hs (hf.congr hopc rfl rfl rfl hE)]
      exact ⟨rfl, hE⟩
    · rw [stepWith_of_completes hs hi, stepWith_of_completes (s := t) hs (hi.congr hopc rfl rfl rfl hE)]
      exact completed_sameButFlags hc hd hE i

/-- Settles O30: only a completed HLT writes `RUN`, and a fault is no completion. -/
theorem onlyHltClearsRun : Obligations.OnlyHltClearsRun := by
  refine ⟨rfl, fun s t h => ?_⟩
  obtain ⟨hs, ⟨f, -, rfl⟩ | ⟨i, hi, rfl⟩⟩ := step_raises_or_completes h
  all_goals obtain ⟨hrun, herr⟩ := status_running.mp hs
  · simp [hrun]
  · simp [hi.opcode_iff Config.default_valid, completed_run, hrun, herr]

/-- Settles O31: only a completed CMP writes `FL`, and it writes one of the three flags. -/
theorem onlyCmpWritesFlags : Obligations.OnlyCmpWritesFlags := by
  refine ⟨rfl, fun s t h => ?_⟩
  obtain ⟨hs, ⟨f, -, rfl⟩ | ⟨i, hi, rfl⟩⟩ := step_raises_or_completes h
  · exact .inl rfl
  · refine (completed_fl Config.default s i).imp_right ?_
    rintro ⟨hm, va, vb, hfl⟩
    exact ⟨(hi.opcode_iff Config.default_valid _).mpr hm, (completed_err ..).trans (status_running.mp hs).2,
      hfl ▸ compareFlags_cases Config.default va vb⟩

/-- Settles O32: the completed PRN appends its register's byte, and neither fetch, fault nor completion reads `OUT`. -/
theorem outIsWrittenByPrnAndNeverRead : Obligations.OutIsWrittenByPrnAndNeverRead := by
  refine ⟨rfl, fun s t o h => ?_⟩
  obtain ⟨hs, ⟨f, hf, rfl⟩ | ⟨i, hi, rfl⟩⟩ := step_raises_or_completes h
  all_goals rw [← stepWith_default]
  · refine ⟨[], (List.append_nil _).symm, .inl rfl, fun _ hnone => (nomatch hnone), ?_⟩
    rw [stepWith_of_raises (s := { s with out := o }) hs (hf.congr rfl rfl rfl rfl rfl), List.append_nil]
    rfl
  · have hopc := hi.opcode_iff Config.default_valid .prn
    have hemit := hi.emitted_eq Config.default_valid
    refine ⟨emitted s i, completed_out _ s i, ?_, fun hm _ => hemit.trans (if_pos (hopc.mp hm)), ?_⟩
    · by_cases hm : i.mnemonic = .prn
      · exact .inr ⟨hopc.mpr hm, (completed_err ..).trans (status_running.mp hs).2, hemit.trans (if_pos hm)⟩
      · exact .inl (hemit.trans (if_neg hm))
    · rw [stepWith_of_completes (s := { s with out := o }) hs (hi.congr rfl rfl rfl rfl rfl), completed_with_out]

/-- Settles O33: a completed PUSH or CALL changes the one cell it stores to, and nothing else changes memory. -/
theorem onlyPushAndCallWriteMemory : Obligations.OnlyPushAndCallWriteMemory := by
  intro s t a hwf h hne
  obtain ⟨hs, ⟨f, -, rfl⟩ | ⟨i, hi, rfl⟩⟩ := step_raises_or_completes h
  · exact absurd rfl hne
  · obtain hmem | ⟨hm, v, hmem⟩ := completed_mem Config.default s i
    · exact absurd (by rw [hmem]) hne
    · have hcell : (s.getReg spReg).toNat - 1 = a := by
        by_contra hother
        exact hne (by rw [hmem, Memory.read_write hwf, if_neg hother])
      refine ⟨?_, (completed_err ..).trans (status_running.mp hs).2, ?_⟩
      · simpa only [hi.opcode_iff Config.default_valid] using hm
      · exact hcell ▸ Nat.sub_add_cancel (hi.sp_pos hm)

/-- Settles O34: a register that changes is among those the completed instruction writes. -/
theorem registersAreWrittenOnlyByTheirWriters : Obligations.RegistersAreWrittenOnlyByTheirWriters := by
  intro s t r h hne
  obtain ⟨hs, ⟨f, -, rfl⟩ | ⟨i, hi, rfl⟩⟩ := step_raises_or_completes h
  · exact absurd rfl hne
  · have hr : r ∈ writtenRegs i := by
      by_contra hr
      exact hne (completed_getReg hr Config.default s)
    refine ⟨(completed_err ..).trans (status_running.mp hs).2, ?_⟩
    simp only [hi.opcode_iff Config.default_valid]
    refine (writtenRegs_cases hr Config.default).imp_left ?_
    rintro ⟨hm, a, ha, hbyte, rfl⟩
    rw [hi.codeByte_eq Config.default_valid hbyte, ← regOf_eq (hi.regOperands_le ha)]
    exact ⟨hm, rfl⟩

/-! ### The canonical form of memory is unique -/

/-- The canonical form of a memory with a first cell. -/
theorem Memory.wfFrom_cons {lo k : Nat} {v : Byte} {m : Memory} :
    Memory.wfFrom lo ((k, v) :: m) = true ↔ lo ≤ k ∧ k < 256 ∧ v ≠ 0#8 ∧ Memory.wfFrom (k + 1) m = true := by
  simp [Memory.wfFrom, and_assoc]

/-- A memory in canonical form from `lo` on reads 0 below `lo`. -/
theorem Memory.read_eq_zero_of_lt {lo a : Nat} {m : Memory} (h : Memory.wfFrom lo m = true) (ha : a < lo) :
    m.read a = 0#8 := by
  induction m generalizing lo with
  | nil => rfl
  | cons c rest ih =>
    obtain ⟨k, v⟩ := c
    obtain ⟨hlo, -, -, hrest⟩ := Memory.wfFrom_cons.mp h
    rw [Memory.read, if_neg (by omega)]
    exact ih hrest (by omega)

/-- The first listed cell holds its byte. -/
theorem Memory.read_head (k : Nat) (v : Byte) (m : Memory) : Memory.read ((k, v) :: m) k = v := if_pos rfl

/-- No cell before the first listed one holds a byte other than 0. -/
theorem Memory.head_le_of_read_ne_zero {lo l k : Nat} {w : Byte} {n : Memory}
    (hn : Memory.wfFrom lo ((l, w) :: n) = true) (h : Memory.read ((l, w) :: n) k ≠ 0#8) : l ≤ k := by
  obtain ⟨-, hl, hw, hrest⟩ := Memory.wfFrom_cons.mp hn
  by_contra hlt
  exact h (Memory.read_eq_zero_of_lt (Memory.wfFrom_cons.mpr ⟨le_refl l, hl, hw, hrest⟩) (by omega))

/-- Equal contents are equal lists, from any first address on. -/
theorem Memory.eq_of_read_eq {lo : Nat} {m n : Memory} (hm : Memory.wfFrom lo m = true)
    (hn : Memory.wfFrom lo n = true) (h : ∀ a, a < 256 → m.read a = n.read a) : m = n := by
  induction m generalizing lo n with
  | nil =>
    cases n with
    | nil => rfl
    | cons c n =>
      obtain ⟨l, w⟩ := c
      obtain ⟨-, hl, hw, -⟩ := Memory.wfFrom_cons.mp hn
      exact absurd ((Memory.read_head l w n).symm.trans (h l hl).symm) hw
  | cons c m ih =>
    obtain ⟨k, v⟩ := c
    obtain ⟨-, hk, hv, hm'⟩ := Memory.wfFrom_cons.mp hm
    have hvk := (Memory.read_head k v m).symm.trans (h k hk)
    cases n with
    | nil => exact absurd hvk hv
    | cons c n =>
      obtain ⟨l, w⟩ := c
      obtain ⟨-, hl, hw, hn'⟩ := Memory.wfFrom_cons.mp hn
      have hwl := (Memory.read_head l w n).symm.trans (h l hl).symm
      obtain rfl : k = l := le_antisymm (Memory.head_le_of_read_ne_zero hm (hwl ▸ hw))
        (Memory.head_le_of_read_ne_zero hn (hvk ▸ hv))
      obtain rfl : v = w := hvk.trans (Memory.read_head k w n)
      have rest : ∀ a, a < 256 → Memory.read m a = Memory.read n a := by
        intro a ha
        by_cases hak : k = a
        · rw [Memory.read_eq_zero_of_lt hm' (by omega), Memory.read_eq_zero_of_lt hn' (by omega)]
        · simpa [Memory.read, hak] using h a ha
      rw [ih hm' hn' rest]

/-- Settles O41, the canonical form from address 0 on. -/
theorem equalContentsAreEqualMemories : Obligations.EqualContentsAreEqualMemories :=
  fun _ _ hm hn h => Memory.eq_of_read_eq hm hn h

end Sys2Proof.Machine
end

section
/-!
SUPPORT and PROOFS. The family 20_memory.md. The memory address decoder is one rule for what a write leaves in memory.
That code and data share the memory is the same rule for the cell a completed PUSH stores to, where that cell is the one the
next step fetches.
-/

namespace Sys2Proof.Machine

/-- Writing one cell in range leaves that cell stored and no other changed (spec/20_memory.md R35). -/
theorem stored_of_mem_eq_write {s t : State} {a : Nat} {v : Byte} (hwf : s.mem.wf = true) (ha : a < 256)
    (ht : t.mem = s.mem.write a v) : Stored s t a v := by
  refine ⟨ht ▸ Memory.wf_write hwf ha v, fun b => ?_⟩
  simp only [ht, Memory.read_write hwf, eq_comm (a := a)]

/-- A stored cell reads back its byte. -/
theorem Stored.read_same {s t : State} {a : Nat} {v : Byte} (h : Stored s t a v) : t.mem.read a = v :=
  (h.2 a).trans (if_pos rfl)

/-- An address within memory, as a byte, is that address (spec/10_state.md R15). -/
theorem toNat_pcPlus {s : State} {n : Nat} (h : s.pc.toNat + n ≤ 255) : (pcPlus s n).toNat = s.pc.toNat + n := by
  rw [pcPlus, BitVec.toNat_ofNat, Nat.mod_eq_of_lt (by omega)]

/-- The completed PUSH has stored its byte in the cell below the old stack pointer (spec/44_stack.md R101). -/
theorem stored_completed_push {s : State} (c : Config) {a : Byte} (hwf : s.mem.wf = true) (ha : regOf a ≠ 7) :
    Stored s (completed c s (.push a)) ((s.getReg spReg).toNat - 1) (s.getReg (regOf a)) :=
  stored_of_mem_eq_write hwf (by omega) (by rw [completed, if_neg ha]; rfl)

/-- Where PUSH completes (R101): operand, stack pointer and successor in range. -/
theorem completes_push {c : Config} {s : State} (hc : c.Valid) (hop : s.codeByte 0 = c.opc .push)
    (ha : (s.codeByte 1).toNat ≤ 7) (hsp : (s.getReg spReg).toNat ≠ 0) (hpc : s.pc.toNat + 2 ≤ 255) :
    Completes c s (.push (s.codeByte 1)) := by
  constructor
  · rw [fetch_one hc.1 hop fun _ => rfl, if_neg (by omega)]
  · have good : (Instr.push (s.codeByte 1)).firstBadReg = none := by
      simpa [Instr.firstBadReg, Instr.regOperands] using ha
    have inRange : rangeFault c s (.push (s.codeByte 1)) = none := by
      rw [rangeFault, spBelow, pastTop, if_neg hsp, if_neg (by omega), Option.or_none]
    rw [instrFault, good, inRange]
    rfl

/-- Where HLT completes (spec/42_system.md R85): the successor in range. -/
theorem completes_hlt {c : Config} {s : State} (hc : c.Valid) (hop : s.codeByte 0 = c.opc .hlt)
    (hpc : s.pc.toNat + 1 ≤ 255) : Completes c s .hlt := by
  refine ⟨fetch_none hc.1 hop fun _ => rfl, ?_⟩
  have inRange : rangeFault c s .hlt = none := if_neg (by omega)
  rw [instrFault, inRange]
  rfl

/-- Settles O40: in range the decoder is `Memory.read` and `Memory.write`, out of range both directions raise. -/
theorem addressDecoderChecksTheRange : Obligations.AddressDecoderChecksTheRange := by
  intro s a v hwf
  split
  case isTrue h =>
    obtain ⟨h0, h1⟩ := h
    have stored : Stored s { s with mem := s.mem.write a.toNat v } a.toNat v :=
      stored_of_mem_eq_write hwf (by omega) rfl
    refine ⟨memRead_of_le s h0 h1, _, memWrite_of_le s h0 h1 v, rfl, stored, ?_⟩
    rw [memRead_of_le _ h0 h1, stored.read_same]
  case isFalse h =>
    have outside : a < 0 ∨ 255 < a := by omega
    exact ⟨memRead_of_gt s outside, memWrite_of_gt s outside v⟩

/-- Settles O29: PUSH completes and stores at its own successor, so the next fetch reads the stored byte; a HLT stored
there then completes. -/
theorem pushedByteIsFetchedByTheNextStep : Obligations.PushedByteIsFetchedByTheNextStep := by
  intro s hwf hs hop ha hpc hsp
  replace hsp : (s.getReg spReg).toNat = s.pc.toNat + 3 := hsp
  let t := completed Config.default s (.push (s.codeByte 1))
  have htpc : t.pc.toNat = s.pc.toNat + 2 := toNat_pcPlus (by omega)
  have notSp : regOf (s.codeByte 1) ≠ 7 := by
    rw [← regOf_eq (by omega), ne_eq, Fin.ext_iff]
    exact ha.ne
  have fetched : t.codeByte 0 = s.getReg (regOf (s.codeByte 1)) := by
    have stored : Stored s t _ _ := stored_completed_push Config.default hwf notSp
    rw [State.codeByte, htpc, show s.pc.toNat + 2 + 0 = (s.getReg spReg).toNat - 1 by omega, stored.read_same]
  have pushes : Completes Config.default s (.push (s.codeByte 1)) :=
    completes_push Config.default_valid hop (by omega) (by omega) (by omega)
  refine ⟨t, (stepWith_default s).symm.trans (stepWith_of_completes hs pushes), fetched, fun hhlt => ?_⟩
  have running : t.status = .running := hs
  have halts : Completes Config.default t .hlt :=
    completes_hlt Config.default_valid (fetched.trans hhlt) (by omega)
  rw [← stepWith_default, stepWith_of_completes running halts, completed, pcPlus, htpc]
  rfl

end Sys2Proof.Machine
end

section
/-!
SUPPORT and PROOFS. The family 30_encoding.md. `Reads` says that a source of bytes begins with given bytes. A source that
decodes to an instruction reads its encoding, and under a valid configuration a source that reads the encoding decodes to
the instruction. Both directions of the decoder and the step at an encoded instruction rest on this, the fetched operands on
the model's lemmas for the fetch stage. A program file is read line by line: the body of a line is its digits, and their
value in base 2 is the byte.
-/

namespace Sys2Proof.Machine

/-! ### Decoding and encoding -/

/-- The source `byteAt` begins with the bytes `bs`. -/
def Reads (byteAt : Nat → Option Byte) (bs : List Byte) : Prop := ∀ k v, bs[k]? = some v → byteAt k = some v

theorem reads_nil (byteAt : Nat → Option Byte) : Reads byteAt [] := fun _ _ h => nomatch h

theorem reads_cons {byteAt : Nat → Option Byte} {v : Byte} {bs : List Byte} (h0 : byteAt 0 = some v)
    (h : Reads (fun k => byteAt (k + 1)) bs) : Reads byteAt (v :: bs)
  | 0, _, hv => h0.trans hv
  | k + 1, w, hw => h k w hw

/-- A list of bytes, as a source, reads exactly the bytes it begins with. -/
theorem reads_getElem?_iff {bytes bs : List Byte} : Reads (fun k => bytes[k]?) bs ↔ bs <+: bytes := by
  rw [List.prefix_iff_getElem?]
  constructor
  · exact fun h k hk => h k _ (List.getElem?_eq_getElem hk)
  · intro h k v hv
    obtain ⟨hk, rfl⟩ := List.getElem?_eq_some_iff.mp hv
    exact h k hk

/-- An instruction decoded from one operand byte has the byte at offset 1 as its operand (R52). -/
theorem oneOperand_eq_ok {byteAt : Nat → Option Byte} {mk : Byte → Instr} {i : Instr}
    (h : oneOperand byteAt mk = .ok i) : ∃ a, byteAt 1 = some a ∧ i = mk a := by
  obtain ⟨a, ha, hok⟩ | ⟨-, herr⟩ := oneOperand_eq byteAt mk
  · exact ⟨a, ha, Except.ok.inj (h.symm.trans hok)⟩
  · exact nomatch h.symm.trans herr

/-- An instruction decoded from two operand bytes has the bytes at offsets 1 and 2 as its operands, in that order (R52). -/
theorem twoOperands_eq_ok {byteAt : Nat → Option Byte} {mk : Byte → Byte → Instr} {i : Instr}
    (h : twoOperands byteAt mk = .ok i) : ∃ a b, byteAt 1 = some a ∧ byteAt 2 = some b ∧ i = mk a b := by
  obtain ⟨a, b, ha, hb, hok⟩ | ⟨-, herr⟩ | ⟨a, -, -, herr⟩ := twoOperands_eq byteAt mk
  · exact ⟨a, b, ha, hb, Except.ok.inj (h.symm.trans hok)⟩
  · exact nomatch h.symm.trans herr
  · exact nomatch h.symm.trans herr

/-- The operands decoded after the opcode of `m` give an instruction whose encoding the source reads. -/
theorem reads_encode_of_decodeOperands {c : Config} {byteAt : Nat → Option Byte} {m : Mnemonic} {i : Instr}
    (h0 : byteAt 0 = some (c.opc m)) (h : decodeOperands byteAt m = .ok i) : Reads byteAt (encode c i) := by
  cases m with
  | hlt | ret =>
    obtain rfl := Except.ok.inj h
    exact reads_cons h0 (reads_nil _)
  | prn | push | pop | call | jmp | jeq | jne =>
    obtain ⟨a, ha, rfl⟩ := oneOperand_eq_ok h
    exact reads_cons h0 (reads_cons ha (reads_nil _))
  | ldi | mul | add | cmp =>
    obtain ⟨a, b, ha, hb, rfl⟩ := twoOperands_eq_ok h
    exact reads_cons h0 (reads_cons ha (reads_cons hb (reads_nil _)))

/-- Under every configuration, a source that decodes to an instruction reads that instruction's encoding (R51, R52). -/
theorem reads_encode_of_decodeFrom {c : Config} {byteAt : Nat → Option Byte} {i : Instr}
    (h : decodeFrom c byteAt = .ok i) : Reads byteAt (encode c i) := by
  cases h0 : byteAt 0 with
  | none => simp [decodeFrom, h0] at h
  | some op =>
    cases hm : c.lookup op with
    | none => simp [decodeFrom, h0, hm] at h
    | some m =>
      refine reads_encode_of_decodeOperands ?_ (by simpa only [decodeFrom, h0, hm] using h)
      rw [h0, Config.opc_of_lookup hm]

/-- What it means for a list of bytes to decode. -/
theorem decode_eq_ok_iff {c : Config} {bytes rest : List Byte} {i : Instr} :
    decode c bytes = .ok (i, rest) ↔ decodeFrom c (fun k => bytes[k]?) = .ok i ∧ bytes.drop i.length = rest := by
  rw [decode]
  cases decodeFrom c (fun k => bytes[k]?) with
  | error e => simp
  | ok j => simpa using fun h : j = i => h ▸ Iff.rfl

/-- The bytes after an encoding are what is left when as many bytes are dropped as the instruction is long (R50). -/
theorem drop_encode_append (c : Config) (i : Instr) (rest : List Byte) :
    (encode c i ++ rest).drop i.length = rest :=
  List.drop_left' (encode_shape c i).1

/-- Settles O1: the bytes of the instruction are read back, since `OPC` is injective, and dropped. -/
theorem decodeOfEncodeGivesTheInstruction : Obligations.DecodeOfEncodeGivesTheInstruction := by
  intro c hc i rest
  have reads : Reads (fun k => (encode c i ++ rest)[k]?) (encode c i) :=
    reads_getElem?_iff.mpr (List.prefix_append _ _)
  exact decode_eq_ok_iff.mpr ⟨decodeFrom_of_bytes hc.1 i _ reads, drop_encode_append c i rest⟩

/-- Settles O2: the bytes begin with the encoding, and the rest is what follows it. -/
theorem decodedBytesAreTheEncoding : Obligations.DecodedBytesAreTheEncoding := by
  intro c bytes rest i h
  obtain ⟨hdec, hrest⟩ := decode_eq_ok_iff.mp h
  obtain ⟨tail, rfl⟩ := reads_getElem?_iff.mp (reads_encode_of_decodeFrom hdec)
  rw [← hrest, drop_encode_append]

/-- Settles O4, word by word. -/
theorem wordsOfTheSpecDecode : Obligations.WordsOfTheSpecDecode := by
  refine ⟨?_, ?_, ?_, ?_, ?_, ?_, ?_, ?_⟩ <;> decide

/-! ### The known opcode bytes -/

/-- The values of the thirteen opcode bytes. -/
def opcodeValues (c : Config) : List Nat := Mnemonic.all.map fun m => (c.opc m).toNat

theorem length_opcodeValues (c : Config) : (opcodeValues c).length = 13 := rfl

/-- Injective opcode bytes have distinct values (R57). -/
theorem nodup_opcodeValues {c : Config} (h : ∀ m n, c.opc m = c.opc n → m = n) : (opcodeValues c).Nodup := by
  have distinct : Mnemonic.all.Nodup := by decide
  exact distinct.map fun m n hval => h m n (BitVec.eq_of_toNat_eq hval)

/-- The byte values that select a mnemonic are the opcode values, each once (R56, R58). -/
theorem filter_known_perm_opcodeValues {c : Config} (h : ∀ m n, c.opc m = c.opc n → m = n) :
    ((List.range 256).filter fun n => !decide (c.lookup (BitVec.ofNat 8 n) = none)).Perm (opcodeValues c) := by
  refine (List.perm_ext_iff_of_nodup (List.nodup_range.filter _) (nodup_opcodeValues h)).mpr fun n => ?_
  simp only [opcodeValues, List.mem_filter, List.mem_range, List.mem_map, Mnemonic.mem_all, true_and,
    Bool.not_eq_true', decide_eq_false_iff_not, Config.lookup_eq_none, not_forall, not_not]
  constructor
  · rintro ⟨hn, m, hm⟩
    exact ⟨m, by rw [hm, BitVec.toNat_ofNat, Nat.mod_eq_of_lt hn]⟩
  · rintro ⟨m, rfl⟩
    exact ⟨(c.opc m).isLt, m, by rw [BitVec.ofNat_toNat, BitVec.setWidth_eq]⟩

/-- Settles O3: of the 256 values the thirteen opcode values are known, so the others are not. -/
theorem exactlyThirteenOpcodeBytesAreKnown : Obligations.ExactlyThirteenOpcodeBytesAreKnown := by
  intro c hc
  have total := List.length_eq_length_filter_add (l := List.range 256)
    fun n => decide (c.lookup (BitVec.ofNat 8 n) = none)
  rw [List.length_range, (filter_known_perm_opcodeValues hc.1).length_eq, length_opcodeValues] at total
  omega

/-! ### The step at an encoded instruction -/

/-- The engine reads the bytes that stand in memory at the program counter (R71, R72). -/
theorem State.Holds.reads {s : State} {bs : List Byte} (h : s.Holds bs) : Reads s.fetchByte bs := by
  obtain ⟨hlen, hbytes⟩ := h
  intro k v hv
  obtain ⟨hk, -⟩ := List.getElem?_eq_some_iff.mp hv
  rw [fetchByte_eq, if_pos (by omega), hbytes k v hv]

/-- The fetch stage at the encoding of an instruction answers that instruction. -/
theorem fetch_of_holds {c : Config} {s : State} {i : Instr} (hc : c.Valid) (h : s.Holds (encode c i)) :
    fetch c s = .ok i := by
  rw [fetch, decodeFrom_of_bytes hc.1 i _ h.reads]

/-- The execute stage reads of the configuration the flag positions alone (R57). -/
theorem execWith_congr {c d : Config} (hE : c.flE = d.flE) (hG : c.flG = d.flG) (hL : c.flL = d.flL) (i : Instr)
    (s : State) : execWith c i s = execWith d i s := by
  have flags : compareFlags c = compareFlags d := by funext va vb; rw [compareFlags, compareFlags, hE, hG, hL]
  have flag : s.flagE c = s.flagE d := by rw [State.flagE, State.flagE, hE]
  have result : completed c s i = completed d s i := by
    cases i with
    | cmp a b => rw [completed, completed, flags]
    | jeq a | jne a => rw [completed, completed, flag]
    | _ => rfl
  rw [execWith_eq, execWith_eq, instrFault_congr rfl rfl rfl flag, result]

/-- Settles O6: the encoded instruction is fetched under its own configuration, and its meaning reads the flag positions
alone. -/
theorem everyConfigurationRunsTheSameMeanings : Obligations.EveryConfigurationRunsTheSameMeanings :=
  ⟨fun _ _ _ hc hs h => cycle_of_fetch_ok hs (fetch_of_holds hc h),
    fun _ _ s i hE hG hL => execWith_congr hE hG hL i s⟩

/-- Settles O46: the two-byte forms fetch their operand at `pc + 1`, the three-byte forms theirs at `pc + 1` and `pc + 2`. -/
theorem operandsStandInTheOrderListed : Obligations.OperandsStandInTheOrderListed := by
  intro s hs hpc
  have one {m : Mnemonic} (mk : Byte → Instr) (hm : ∀ byteAt, decodeOperands byteAt m = oneOperand byteAt mk)
      (hop : s.codeByte 0 = Config.default.opc m) : step s = exec (mk (s.codeByte 1)) s :=
    cycle_of_fetch_ok hs <| (fetch_one Config.default_valid.1 hop hm).trans (if_neg (by omega))
  have two {m : Mnemonic} (mk : Byte → Byte → Instr)
      (hm : ∀ byteAt, decodeOperands byteAt m = twoOperands byteAt mk)
      (hop : s.codeByte 0 = Config.default.opc m) : step s = exec (mk (s.codeByte 1) (s.codeByte 2)) s :=
    cycle_of_fetch_ok hs <| (fetch_two Config.default_valid.1 hop hm).trans (if_neg (by omega))
  exact ⟨two .ldi fun _ => rfl, one .prn fun _ => rfl, two .mul fun _ => rfl, two .add fun _ => rfl,
    one .push fun _ => rfl, one .pop fun _ => rfl, one .call fun _ => rfl, two .cmp fun _ => rfl,
    one .jmp fun _ => rfl, one .jeq fun _ => rfl, one .jne fun _ => rfl⟩

/-! ### Program files -/

/-- The binary digits of a literal (R62). -/
def BinaryDigits (ds : List Char) : Prop := ∀ ch ∈ ds, ch = '0' ∨ ch = '1'

/-- The body of a line of binary digits followed by at most blanks and a comment is the digits (R62). -/
theorem lineBody_digits_append {ds tail : List Char} (hds : BinaryDigits ds) (hne : ds ≠ [])
    (htail : ∀ ch ∈ tail.takeWhile (· != '#'), isBlank ch = true) : lineBody (ds ++ tail) = ds := by
  have noComment : ∀ ch ∈ ds, (ch != '#') = true := fun ch h => by obtain rfl | rfl := hds ch h <;> rfl
  have notBlank : ∀ ch ∈ ds, ¬isBlank ch = true := fun ch h => by obtain rfl | rfl := hds ch h <;> decide
  have front : ∀ us, (ds ++ us).dropWhile isBlank = ds ++ us := fun us => by
    obtain ⟨d, ds', rfl⟩ := List.exists_cons_of_ne_nil hne
    exact List.dropWhile_cons_of_neg (notBlank d List.mem_cons_self)
  have back : ds.reverse.dropWhile isBlank = ds.reverse :=
    List.dropWhile_eq_self_iff.mpr fun hl => notBlank _ (List.mem_reverse.mp (List.getElem_mem hl))
  rw [lineBody, List.takeWhile_append_of_pos noComment, front, List.reverse_append,
    List.dropWhile_append_of_pos fun ch h => htail ch (List.mem_reverse.mp h), back, List.reverse_reverse]

/-- Such a line is read as the value of its digits. -/
theorem parseLine_digits_append {ds tail : List Char} (hds : BinaryDigits ds) (hne : ds ≠ [])
    (htail : ∀ ch ∈ tail.takeWhile (· != '#'), isBlank ch = true) :
    parseLine (ds ++ tail) = some (some (binaryValue ds)) := by
  have digits : (ds.all fun ch => ch == '0' || ch == '1') = true := by simpa [BinaryDigits] using hds
  rw [parseLine, lineBody_digits_append hds hne htail]
  simp [hne, digits]

/-- The digits of a bit field of a number, most significant first, read from an accumulator on. -/
theorem foldl_bits (v n acc : Nat) :
    ((List.range n).reverse.map fun k => if v.testBit k then '1' else '0').foldl
      (fun acc ch => 2 * acc + (if ch == '1' then 1 else 0)) acc = acc * 2 ^ n + v % 2 ^ n := by
  induction n generalizing acc with
  | zero => simp [Nat.mod_one]
  | succ n ih =>
    have digit : (if (if v.testBit n then '1' else '0') == '1' then 1 else 0) = v / 2 ^ n % 2 := by
      rw [← Nat.toNat_testBit]
      cases v.testBit n <;> rfl
    rw [List.range_succ, List.reverse_append, List.reverse_singleton, List.singleton_append, List.map_cons,
      List.foldl_cons, ih, digit, Nat.mod_pow_succ]
    ring

/-- The eight digits written for a byte have its value. -/
theorem binaryValue_binaryLine {v : Nat} (hv : v ≤ 255) : binaryValue (binaryLine v) = v := by
  rw [binaryValue, binaryLine, foldl_bits, Nat.zero_mul, Nat.zero_add, Nat.mod_eq_of_lt (by omega)]

theorem binaryDigits_binaryLine (v : Nat) : BinaryDigits (binaryLine v) := by
  intro ch h
  obtain ⟨k, -, rfl⟩ := List.mem_map.mp h
  cases v.testBit k
  · exact .inl rfl
  · exact .inr rfl

/-- The line of a byte, with at most blanks and a comment after it, is read as that byte. -/
theorem parseLine_binaryLine_append {v : Nat} {tail : List Char} (hv : v ≤ 255)
    (htail : ∀ ch ∈ tail.takeWhile (· != '#'), isBlank ch = true) :
    parseLine (binaryLine v ++ tail) = some (some v) := by
  have nonempty : binaryLine v ≠ [] := List.cons_ne_nil _ _
  rw [parseLine_digits_append (binaryDigits_binaryLine v) nonempty htail, binaryValue_binaryLine hv]

/-- A file with one literal a line has the literals' values as its image. -/
theorem parseProgram_map {img : List Nat} {line : Nat → List Char}
    (h : ∀ v ∈ img, parseLine (line v) = some (some v)) : parseProgram (img.map line) = some img := by
  induction img with
  | nil => rfl
  | cons v img ih =>
    rw [List.map_cons, parseProgram, h v List.mem_cons_self, ih fun w hw => h w (List.mem_cons_of_mem v hw)]

/-- Such a file loads as that image (R124). -/
theorem boot_map {img : List Nat} {line : Nat → List Char} (h : ∀ v ∈ img, parseLine (line v) = some (some v)) :
    State.boot (img.map line) = State.init img := by
  rw [State.boot, parseProgram_map h]

/-- Settles O43: each line is read as its value, with nothing after the digits or with a blank and a comment. -/
theorem programFileLoadsItsLiterals : Obligations.ProgramFileLoadsItsLiterals := by
  refine fun img comment himg => ⟨boot_map fun v hv => ?_, boot_map fun v hv => ?_⟩
  · rw [← List.append_nil (binaryLine v)]
    exact parseLine_binaryLine_append (himg v hv) fun _ h => nomatch h
  · exact parseLine_binaryLine_append (himg v hv) (by simp [isBlank])

end Sys2Proof.Machine
end

section
/-!
SUPPORT and PROOFS. The family 40_cycle.md. A step exists exactly in status Running, and a run that has left it stays where
it is. What a step raises is legal because a fetched instruction lies below address 256: the addresses it can come to out of
range are then -1 and 256 alone. The invariant follows for one step from what a fault and what a completed instruction
write, and for every run by induction from the loaded image.
-/

namespace Sys2Proof.Machine

/-! ### The fetched instruction -/

/-- The fetch stage answers the instruction that the bytes at the program counter decode to (R71, R72). -/
theorem fetch_eq_ok_iff {c : Config} {s : State} {i : Instr} :
    fetch c s = .ok i ↔ decodeFrom c s.fetchByte = .ok i := by
  rw [fetch]
  split <;> simp [*]

/-- A byte that the engine fetches has an address (R72). -/
theorem fetchByte_eq_some_le {s : State} {k : Nat} {v : Byte} (h : s.fetchByte k = some v) : s.pc.toNat + k ≤ 255 := by
  rw [fetchByte_eq] at h
  split at h
  · assumption
  · exact nomatch h

/-- A fetched instruction lies wholly below address 256 (R72). -/
theorem fits_of_fetch_ok {c : Config} {s : State} {i : Instr} (h : fetch c s = .ok i) :
    s.pc.toNat + i.length ≤ 256 := by
  have hpos : 0 < i.length := by cases i <;> exact Nat.succ_pos _
  have hlast : i.length - 1 < (encode c i).length := by rw [(encode_shape c i).1]; omega
  have reads : Reads s.fetchByte (encode c i) := reads_encode_of_decodeFrom (fetch_eq_ok_iff.mp h)
  have := fetchByte_eq_some_le (reads _ _ (List.getElem?_eq_getElem hlast))
  omega

/-- Settles O5: the window is what the engine fetches, so the fetch stage answers the decoded instruction. -/
theorem stepRunsTheDecodedInstruction : Obligations.StepRunsTheDecodedInstruction := by
  intro s i rest hs hdec
  have fetched : fetch Config.default s = .ok i := by
    simpa only [fetch_eq_ok_iff, window_getElem?] using (decode_eq_ok_iff.mp hdec).1
  exact cycle_of_fetch_ok hs fetched

/-! ### The faults a step can raise -/

/-- Falling through to an address that exists. -/
theorem pastTop_eq_none_iff {s : State} {n : Nat} : pastTop s n = none ↔ s.pc.toNat + n ≤ 255 := by
  simp [pastTop]

/-- The successor of an instruction below address 256 is out of range only at 256. -/
theorem pastTop_eq_some {s : State} {n : Nat} {t : Int} (hfit : s.pc.toNat + n ≤ 256) (h : pastTop s n = some t) :
    t = 256 := by
  obtain ⟨habove, hsome⟩ := Option.ite_none_right_eq_some.mp h
  obtain rfl := Option.some.inj hsome
  omega

theorem spBelow_eq_some {s : State} {t : Int} (h : spBelow s = some t) : t = -1 :=
  (Option.some.inj (Option.ite_none_right_eq_some.mp h).2).symm

theorem spAbove_eq_some {s : State} {t : Int} (h : spAbove s = some t) : t = 256 :=
  (Option.some.inj (Option.ite_none_right_eq_some.mp h).2).symm

/-- An instruction below address 256 comes to no address out of range but -1 and 256 (R32). -/
theorem rangeFault_legal {c : Config} {s : State} {i : Instr} {t : Int} (hfit : s.pc.toNat + i.length ≤ 256)
    (h : rangeFault c s i = some t) : t = -1 ∨ t = 256 := by
  cases i with
  | ldi _ _ | mul _ _ | add _ _ | cmp _ _ | prn _ | hlt => exact .inr (pastTop_eq_some hfit h)
  | push _ | call _ =>
    obtain hsp | ⟨-, hpc⟩ := Option.or_eq_some_iff.mp h
    · exact .inl (spBelow_eq_some hsp)
    · exact .inr (pastTop_eq_some hfit hpc)
  | pop _ =>
    obtain hsp | ⟨-, hpc⟩ := Option.or_eq_some_iff.mp h
    · exact .inr (spAbove_eq_some hsp)
    · exact .inr (pastTop_eq_some hfit hpc)
  | ret => exact .inr (spAbove_eq_some h)
  | jmp _ => exact nomatch h
  | jeq _ => exact .inr (pastTop_eq_some hfit (Option.ite_none_left_eq_some.mp h).2)
  | jne _ => exact .inr (pastTop_eq_some hfit (Option.ite_none_right_eq_some.mp h).2)

/-- The first bad register operand is a byte above 7 (R55). -/
theorem firstBadReg_gt {i : Instr} {v : Byte} (h : i.firstBadReg = some v) : 7 < v.toNat :=
  of_decide_eq_true (List.find?_some h :)

/-- An instruction below address 256 raises only faults with a legal information value (R19). -/
theorem instrFault_legal {c : Config} {s : State} {i : Instr} {f : FaultValue} (hfit : s.pc.toNat + i.length ≤ 256)
    (h : instrFault c s i = some f) : f.Legal c := by
  obtain hreg | ⟨-, hrange⟩ := Option.or_eq_some_iff.mp h
  · obtain ⟨v, hv, rfl⟩ := Option.map_eq_some_iff.mp hreg
    exact firstBadReg_gt hv
  · obtain ⟨t, ht, rfl⟩ := Option.map_eq_some_iff.mp hrange
    exact rangeFault_legal hfit ht

/-- The fetch stage raises an opcode byte that is none of the thirteen, or address 256 (R71, R72). -/
theorem fetch_error_legal {c : Config} {s : State} {f : FaultValue} (hc : c.Valid) (h : fetch c s = .error f) :
    f.Legal c := by
  obtain ⟨hop, hf⟩ | ⟨-, hf⟩ | ⟨i, hf, -⟩ := fetch_cases s hc.1
  · obtain rfl := Except.error.inj (hf.symm.trans h)
    exact hop
  · obtain rfl := Except.error.inj (hf.symm.trans h)
    exact .inr rfl
  · exact nomatch hf.symm.trans h

/-- Every fault a step raises has a legal information value (R19). -/
theorem Raises.legal {c : Config} {s : State} {f : FaultValue} (h : Raises c s f) (hc : c.Valid) : f.Legal c := by
  obtain hf | ⟨i, hf, hi⟩ := h
  · exact fetch_error_legal hc hf
  · exact instrFault_legal (fits_of_fetch_ok hf) hi

/-! ### The invariant -/

/-- Raising a legal fault while `RUN` is true keeps the invariant. -/
theorem State.Inv.raise {c : Config} {s : State} {f : FaultValue} (h : s.Inv c) (hrun : s.run = true)
    (hf : f.Legal c) : (raise s f).Inv c where
  mem_wf := h.mem_wf
  fl_legal := h.fl_legal
  err_legal _ hg := Option.some.inj hg ▸ hf
  faulted_run _ := hrun

/-- A completed instruction keeps the invariant: PUSH and CALL write a cell in range, CMP one flag, none writes `ERR`. -/
theorem State.Inv.completed {c : Config} {s : State} (h : s.Inv c) (herr : s.err = none) (i : Instr) :
    (completed c s i).Inv c where
  mem_wf := by
    obtain hmem | ⟨-, v, hmem⟩ := completed_mem c s i
    · exact hmem ▸ h.mem_wf
    · exact hmem ▸ Memory.wf_write h.mem_wf (by omega) v
  fl_legal := by
    obtain hfl | ⟨-, va, vb, hfl⟩ := completed_fl c s i
    · exact hfl ▸ h.fl_legal
    · exact hfl ▸ .inr (compareFlags_cases c va vb)
  err_legal f hf := h.err_legal f (completed_err c s i ▸ hf)
  faulted_run hne := absurd ((completed_err c s i).trans herr) hne

/-- Settles O35: a step raises a legal fault in status Running, or completes an instruction. -/
theorem invariantKeptByEveryStep : Obligations.InvariantKeptByEveryStep := by
  intro s t hinv h
  obtain ⟨hs, ⟨f, hf, rfl⟩ | ⟨i, -, rfl⟩⟩ := step_raises_or_completes h
  all_goals obtain ⟨hrun, herr⟩ := status_running.mp hs
  · exact hinv.raise hrun (hf.legal Config.default_valid)
  · exact hinv.completed herr i

/-- Reset establishes the invariant. -/
theorem inv_reset (c : Config) : State.reset.Inv c where
  mem_wf := Memory.wf_reset
  fl_legal := .inl rfl
  err_legal _ hf := nomatch hf
  faulted_run _ := rfl

/-- The Loader writes in range, and so keeps the invariant (spec/50_interfaces.md R124). -/
theorem inv_of_loadFrom {c : Config} {bytes : List Byte} {s t : State} {a : Nat} (h : s.Inv c)
    (hload : loadFrom s a bytes = some t) : t.Inv c := by
  induction bytes generalizing s a with
  | nil => exact Option.some.inj hload ▸ h
  | cons v bytes ih =>
    by_cases ha : a ≤ 255
    · rw [loadFrom, memWrite_of_le s (by omega) (by omega)] at hload
      have stored : State.Inv c { s with mem := s.mem.write (a : Int).toNat v } :=
        { h with mem_wf := Memory.wf_write h.mem_wf (by omega) v }
      exact ih stored hload
    · rw [loadFrom, memWrite_of_gt s (by omega)] at hload
      exact nomatch hload

/-- The initial state of every image that loads has the invariant (R171). -/
theorem inv_of_init {c : Config} {img : List Nat} {s : State} (h : State.init img = some s) : s.Inv c :=
  inv_of_loadFrom (inv_reset c) (Option.ite_none_right_eq_some.mp h).2

/-- What holds at the start of a run and is kept by every step holds in every state of the run (R76). -/
theorem Reaches.induct_invariant {P : State → Prop} {s t : State} (h : Reaches s t) (hstart : P s)
    (hstep : ∀ u v, P u → step u = .next v → P v) : P t := by
  induction h with
  | start => exact hstart
  | more _ hlast ih => exact hstep _ _ ih hlast

/-- Settles O37: the loaded image has the invariant, and every step keeps it. -/
theorem invariantInEveryRun : Obligations.InvariantInEveryRun :=
  fun _ _ _ hinit hreach => hreach.induct_invariant (inv_of_init hinit) invariantKeptByEveryStep

/-! ### Where steps exist -/

/-- A step exists exactly in status Running (R70). -/
theorem exists_step_iff {s : State} : (∃ t, step s = .next t) ↔ s.status = .running := by
  constructor
  · exact fun ⟨_, h⟩ => (step_cases h).1
  · intro hs
    rw [← stepWith_default]
    obtain ⟨f, hf⟩ | ⟨i, hi⟩ := raises_or_completes Config.default s
    · exact ⟨_, stepWith_of_raises hs hf⟩
    · exact ⟨_, stepWith_of_completes hs hi⟩

/-- A run that starts outside status Running stays at its start (R70, R147). -/
theorem Reaches.eq_of_not_running {s t : State} (h : Reaches s t) (hs : s.status ≠ .running) : t = s :=
  h.induct_invariant (P := (· = s)) rfl fun _ v hu hstep =>
    absurd (exists_step_iff.mp ⟨v, hstep⟩) (hu ▸ hs)

/-- Settles O7: the status decides, and it is one of three. -/
theorem stepExistsExactlyWhileRunning : Obligations.StepExistsExactlyWhileRunning := by
  intro s
  refine ⟨status_running.symm.trans exists_step_iff.symm, ?_, cycle_halted, cycle_faulted⟩
  cases s.status <;> decide

/-- Settles O45: steps exist in status Running alone, and `step` is a function. -/
theorem noComponentChangesOutsideRunning : Obligations.NoComponentChangesOutsideRunning := by
  refine fun s => ⟨status_running.symm.trans exists_step_iff.symm, fun hs t hreach => ?_, fun t u ht hu => ?_⟩
  · exact hreach.eq_of_not_running (mt status_running.mp hs)
  · exact Host.Outcome.next.inj (ht.symm.trans hu)

/-! ### The normal end of a run -/

/-- A completed instruction comes to no address out of range. -/
theorem Completes.rangeFault_eq_none {c : Config} {s : State} {i : Instr} (h : Completes c s i) :
    rangeFault c s i = none :=
  Option.map_eq_none_iff.mp (Option.or_eq_none_iff.mp h.2).2

/-- A step that ends in status Halted has completed HLT (R77). -/
theorem completes_hlt_of_step_halted {s t : State} (h : step s = .next t) (ht : t.status = .halted) :
    Completes Config.default s .hlt ∧ t = completed Config.default s .hlt := by
  obtain ⟨hrun, herr⟩ := status_halted.mp ht
  obtain ⟨hs, ⟨f, -, rfl⟩ | ⟨i, hi, rfl⟩⟩ := step_raises_or_completes h
  · exact nomatch herr
  · have hm : i.mnemonic = .hlt := by
      by_contra hne
      rw [completed_run, if_neg hne, (status_running.mp hs).1] at hrun
      exact nomatch hrun
    cases i with
    | hlt => exact ⟨hi, rfl⟩
    | _ => exact nomatch hm

/-- Settles O38: the run has a last step, since it starts Running, and that step completed HLT. -/
theorem normalEndIsACompletedHlt : Obligations.NormalEndIsACompletedHlt := by
  rintro s t hs ⟨hreach, ht⟩
  cases hreach with
  | start => exact nomatch hs.symm.trans ht
  | @more u _ hu hlast =>
    obtain ⟨hhlt, rfl⟩ := completes_hlt_of_step_halted hlast ht
    have opcode := (hhlt.opcode_iff Config.default_valid .hlt).mpr rfl
    have successor : (pcPlus u 1).toNat = u.pc.toNat + 1 :=
      toNat_pcPlus (pastTop_eq_none_iff.mp hhlt.rangeFault_eq_none)
    exact ⟨u, hu, opcode, hlast, successor, rfl⟩

end Sys2Proof.Machine
end

section
/-!
SUPPORT and PROOFS. The family 41_data_and_output.md. The step of a known opcode byte is a fetch fault at the top of memory
or the execute stage on the operand bytes, one rule for each number of operand bytes. Where the operands were fetched, the
only address the fall-through can leave memory at is 256. LDI and PRN are these rules with the equation of their meaning.
-/

namespace Sys2Proof.Machine

/-- The step of an opcode byte with one operand byte: address 256 is presented at the top of memory, else the instruction
runs (spec/40_cycle.md R72, R75). -/
theorem step_one {s : State} {m : Mnemonic} {mk : Byte → Instr} (hs : s.status = .running)
    (hop : s.codeByte 0 = Config.default.opc m) (hm : ∀ byteAt, decodeOperands byteAt m = oneOperand byteAt mk) :
    step s = if s.pc.toNat = 255 then faultsAt256 s else exec (mk (s.codeByte 1)) s := by
  have fetched := fetch_one Config.default_valid.1 hop hm
  split
  case isTrue h => exact cycle_of_fetch_error hs (fetched.trans (if_pos h))
  case isFalse h => exact cycle_of_fetch_ok hs (fetched.trans (if_neg h))

/-- The step of an opcode byte with two operand bytes: address 256 is presented where one of them is missing, else the
instruction runs (R72, R75). -/
theorem step_two {s : State} {m : Mnemonic} {mk : Byte → Byte → Instr} (hs : s.status = .running)
    (hop : s.codeByte 0 = Config.default.opc m) (hm : ∀ byteAt, decodeOperands byteAt m = twoOperands byteAt mk) :
    step s = if 254 ≤ s.pc.toNat then faultsAt256 s else exec (mk (s.codeByte 1) (s.codeByte 2)) s := by
  have fetched := fetch_two Config.default_valid.1 hop hm
  split
  case isTrue h => exact cycle_of_fetch_error hs (fetched.trans (if_pos h))
  case isFalse h => exact cycle_of_fetch_ok hs (fetched.trans (if_neg h))

/-- The fall-through of an instruction whose `n` bytes lie below address 256 raises at the last such `pc` alone, with
address 256 (spec/10_state.md R15). -/
theorem pastTop_guard_of_le {s : State} {n last : Nat} (hlast : last + n = 256) (hpc : s.pc.toNat ≤ last)
    (r : Host.Outcome State Fault Refusal) :
    (if 255 < s.pc.toNat + n then .next (raise s (.outOfRangeAddress ((s.pc.toNat + n : Nat) : Int))) else r) =
      if s.pc.toNat = last then faultsAt256 s else r := by
  by_cases h : s.pc.toNat = last
  · rw [if_pos (by omega), if_pos h, h, hlast]
    rfl
  · rw [if_neg (by omega), if_neg h]

/-- Settles O13: the meaning's own faults come after the fetch of both operand bytes. -/
theorem ldiLoadsTheImmediate : Obligations.LdiLoadsTheImmediate := by
  refine ⟨fun a b s ha hpc => ?completes, fun s hs hop => ?wholeStep⟩
  case completes =>
    refine (execLdi_eq a b s).trans ?_
    rw [if_neg (by omega), if_neg (by omega)]
    rfl
  case wholeStep =>
    rw [step_two hs hop fun _ => rfl]
    split
    · rfl
    · refine (execLdi_eq _ _ s).trans ?_
      rw [pastTop_guard_of_le (last := 253) rfl (by omega)]
      rfl

/-- Settles O14: the meaning's own faults come after the fetch of the operand byte. -/
theorem prnEmitsTheRegister : Obligations.PrnEmitsTheRegister := by
  refine ⟨fun a s ha hpc => ?completes, fun s hs hop => ?wholeStep⟩
  case completes =>
    refine (execPrn_eq a s).trans ?_
    rw [if_neg (by omega), if_neg (by omega)]
    rfl
  case wholeStep =>
    rw [step_one hs hop fun _ => rfl]
    split
    · rfl
    · refine (execPrn_eq _ s).trans ?_
      rw [pastTop_guard_of_le (last := 254) rfl (by omega)]
      rfl

end Sys2Proof.Machine
end

section
/-!
SUPPORT and PROOFS. The family 42_system.md. HLT has no operand byte, so its fetch raises nothing at any `pc` and its
whole step is its meaning. The one fault of that meaning is the fall-through past address 255.
-/

namespace Sys2Proof.Machine

/-- The step of an opcode byte without operand bytes is the execute stage at every `pc` (spec/40_cycle.md R71, R75). -/
theorem step_none {s : State} {m : Mnemonic} {i : Instr} (hs : s.status = .running)
    (hop : s.codeByte 0 = Config.default.opc m) (hm : ∀ byteAt, decodeOperands byteAt m = .ok i) :
    step s = exec i s :=
  cycle_of_fetch_ok hs (fetch_none Config.default_valid.1 hop hm)

/-- HLT at every `pc`: the fall-through decides between address 256 and the halted successor (spec/42_system.md R85). -/
theorem exec_hlt_eq (s : State) :
    exec .hlt s =
      if s.pc.toNat = 255 then faultsAt256 s
      else .next { s with run := false, pc := BitVec.ofNat 8 (s.pc.toNat + 1) } := by
  refine (execHlt_eq s).trans ?_
  rw [pastTop_guard_of_le (last := 255) rfl (by omega)]

/-- Settles O15: `exec_hlt_eq`, below address 255 and after the fetch. -/
theorem hltClearsRunAndAdvances : Obligations.HltClearsRunAndAdvances := by
  refine ⟨fun s hpc => ?completes, fun s hs hop => ?wholeStep⟩
  case completes => rw [exec_hlt_eq, if_neg (by omega)]
  case wholeStep => rw [step_none hs hop fun _ => rfl, exec_hlt_eq]

end Sys2Proof.Machine
end

section
/-!
SUPPORT and PROOFS. The family 43_alu.md. An instruction with good register operands whose addresses are all in range
completes; MUL, ADD and CMP are the two-register forms that fall through three bytes, so they share one rule for where they
complete and one for their whole step. After CMP, bit E is the equality of the two registers, and it alone decides the
conditional jumps.
-/

namespace Sys2Proof.Machine

/-! ### Where an instruction completes -/

/-- An instruction raises no fault exactly when its register operands are good and it comes to no address out of range
(spec/60_exceptions.md R145). -/
theorem instrFault_eq_none_iff {c : Config} {s : State} {i : Instr} :
    instrFault c s i = none ↔ (∀ v ∈ i.regOperands, v.toNat ≤ 7) ∧ rangeFault c s i = none := by
  simp [instrFault, Instr.firstBadReg]

/-- The execute stage of an instruction that raises no fault (spec/40_cycle.md R74). -/
theorem exec_completes {s : State} {i : Instr} (h : instrFault Config.default s i = none) :
    exec i s = .next (completed Config.default s i) := by
  rw [← execWith_default, execWith_eq, h]
  rfl

/-! ### The two-register forms -/

/-- A two-register form that falls through three bytes completes at every `pc` up to 252 (spec/43_alu.md R93 to R95). -/
theorem exec_twoRegs_completes {s : State} {i : Instr} {a b : Byte} (hi : i.regOperands = [a, b])
    (hrange : rangeFault Config.default s i = pastTop s 3) (ha : a.toNat ≤ 7) (hb : b.toNat ≤ 7)
    (hpc : s.pc.toNat ≤ 252) : exec i s = .next (completed Config.default s i) := by
  have good : ∀ v ∈ i.regOperands, v.toNat ≤ 7 := by simp [hi, ha, hb]
  have inRange : rangeFault Config.default s i = none := hrange.trans (pastTop_eq_none_iff.mpr (by omega))
  exact exec_completes (instrFault_eq_none_iff.mpr ⟨good, inRange⟩)

/-- The whole step of a two-register form that falls through three bytes: the fetch, the two register operands and the
fall-through, in this order (R93 to R95, R145). -/
theorem step_twoRegs {s : State} {m : Mnemonic} {mk : Byte → Byte → Instr} (hs : s.status = .running)
    (hop : s.codeByte 0 = Config.default.opc m) (hm : ∀ byteAt, decodeOperands byteAt m = twoOperands byteAt mk)
    (hregs : ∀ a b, (mk a b).regOperands = [a, b])
    (hrange : ∀ a b, rangeFault Config.default s (mk a b) = pastTop s 3) :
    step s =
      if 254 ≤ s.pc.toNat then faultsAt256 s
      else if 7 < (s.codeByte 1).toNat then faultsWith s (.invalidRegisterIndex (s.codeByte 1))
      else if 7 < (s.codeByte 2).toNat then faultsWith s (.invalidRegisterIndex (s.codeByte 2))
      else if s.pc.toNat = 253 then faultsAt256 s
      else .next (completed Config.default s (mk (s.codeByte 1) (s.codeByte 2))) := by
  rw [step_two hs hop hm]
  split
  · rfl
  · rw [← execWith_default, execWith_eq, answer_instrFault_twoRegs (h := hregs _ _), hrange, pastTop, answer_range,
      pastTop_guard_of_le (last := 253) rfl (by omega)]
    rfl

/-- Settles O16: MUL is a two-register form, completing with the ALU's product in the first register. -/
theorem mulWritesTheProductModulo256 : Obligations.MulWritesTheProductModulo256 :=
  ⟨fun _ _ _ ha hb hpc => exec_twoRegs_completes rfl rfl ha hb hpc,
    fun _ hs hop => step_twoRegs hs hop (fun _ => rfl) (fun _ _ => rfl) fun _ _ => rfl⟩

/-- Settles O17: ADD is a two-register form, completing with the ALU's sum in the first register. -/
theorem addWritesTheSumModulo256 : Obligations.AddWritesTheSumModulo256 :=
  ⟨fun _ _ _ ha hb hpc => exec_twoRegs_completes rfl rfl ha hb hpc,
    fun _ hs hop => step_twoRegs hs hop (fun _ => rfl) (fun _ _ => rfl) fun _ _ => rfl⟩

/-- Settles O18: CMP is a two-register form, completing with `compareFlags` in place of the whole of `FL`. -/
theorem cmpSetsExactlyOneFlag : Obligations.CmpSetsExactlyOneFlag :=
  ⟨fun _ _ _ ha hb hpc => exec_twoRegs_completes rfl rfl ha hb hpc,
    fun _ hs hop => step_twoRegs hs hop (fun _ => rfl) (fun _ _ => rfl) fun _ _ => rfl⟩

/-! ### CMP and the conditional jumps -/

/-- CMP leaves bit E set exactly when the two registers are equal (R95). -/
theorem flagE_completed_cmp {c : Config} (hc : c.FlagsDistinct) (s : State) (a b : Byte) :
    (completed c s (.cmp a b)).flagE c = decide (s.getReg (regOf a) = s.getReg (regOf b)) :=
  compareFlags_flE hc _ _

/-- JEQ where its successor exists: bit E selects the register, else the successor (spec/45_control.md R114). -/
theorem exec_jeq_completes {s : State} {r : Byte} (hr : r.toNat ≤ 7) (hpc : s.pc.toNat ≤ 253) :
    exec (.jeq r) s =
      .next { s with pc := if s.flagE Config.default then s.getReg (regOf r) else pcPlus s 2 } := by
  have inRange : rangeFault Config.default s (.jeq r) = none := by
    rw [rangeFault, pastTop_eq_none_iff.mpr (by omega), ite_self]
  exact exec_completes (instrFault_eq_none_iff.mpr ⟨List.forall_mem_singleton.mpr hr, inRange⟩)

/-- JNE where its successor exists: bit E selects the successor, else the register (R115). -/
theorem exec_jne_completes {s : State} {r : Byte} (hr : r.toNat ≤ 7) (hpc : s.pc.toNat ≤ 253) :
    exec (.jne r) s =
      .next { s with pc := if s.flagE Config.default then pcPlus s 2 else s.getReg (regOf r) } := by
  have inRange : rangeFault Config.default s (.jne r) = none := by
    rw [rangeFault, pastTop_eq_none_iff.mpr (by omega), ite_self]
  exact exec_completes (instrFault_eq_none_iff.mpr ⟨List.forall_mem_singleton.mpr hr, inRange⟩)

/-- Settles O26: CMP completes three bytes on with bit E the equality of the registers, which decides both jumps. -/
theorem compareThenJumpDecidesEquality : Obligations.CompareThenJumpDecidesEquality := by
  intro a b r s t ha hb hr hpc hcmp
  obtain rfl : completed Config.default s (.cmp a b) = t :=
    Host.Outcome.next.inj ((exec_twoRegs_completes rfl rfl ha hb (by omega)).symm.trans hcmp)
  have flagE := flagE_completed_cmp Config.default_valid.2 s a b
  have afterCmp : (completed Config.default s (.cmp a b)).pc.toNat = s.pc.toNat + 3 :=
    toNat_pcPlus (by omega)
  rw [exec_jeq_completes hr (by omega), exec_jne_completes hr (by omega), flagE, pcPlus, afterCmp]
  by_cases heq : s.getReg (regOf a) = s.getReg (regOf b)
  · rw [decide_eq_true heq]
    exact (if_pos heq).mpr ⟨rfl, rfl⟩
  · rw [decide_eq_false heq]
    exact (if_neg heq).mpr ⟨rfl, rfl⟩

end Sys2Proof.Machine
end

section
/-!
SUPPORT and PROOFS. The family 44_stack.md. PUSH and POP have one register operand and come to two addresses that may be
out of range, the moved stack pointer and then the successor, so they share one rule for where they complete and one for
their whole step. Operand 7 makes a difference in two places only: the byte that PUSH stores, and the stack pointer as POP's
load leaves it. After a matching PUSH that pointer is where the PUSH left it, whichever the operand.
-/

namespace Sys2Proof.Machine

/-! ### The forms that move the stack pointer and fall through -/

/-- A one-register form that may come to address `x` and then falls through two bytes completes where neither address is
out of range (spec/44_stack.md R101, R102). -/
theorem exec_stack_completes {s : State} {i : Instr} {a : Byte} {p : Prop} [Decidable p] {x : Int}
    (hi : i.regOperands = [a])
    (hrange : rangeFault Config.default s i = (if p then some x else none).or (pastTop s 2))
    (ha : a.toNat ≤ 7) (hp : ¬p) (hpc : s.pc.toNat ≤ 253) : exec i s = .next (completed Config.default s i) := by
  have good : ∀ v ∈ i.regOperands, v.toNat ≤ 7 := by simp [hi, ha]
  have inRange : rangeFault Config.default s i = none := by
    rw [hrange, if_neg hp, pastTop_eq_none_iff.mpr (by omega), Option.or_none]
  exact exec_completes (instrFault_eq_none_iff.mpr ⟨good, inRange⟩)

/-- The whole step of such a form: the fetch, the register operand, address `x` and the fall-through, in this order
(R101, R102, R145). -/
theorem step_stack {s : State} {m : Mnemonic} {mk : Byte → Instr} {p : Prop} [Decidable p] {x : Int}
    (hs : s.status = .running) (hop : s.codeByte 0 = Config.default.opc m)
    (hm : ∀ byteAt, decodeOperands byteAt m = oneOperand byteAt mk) (hregs : ∀ a, (mk a).regOperands = [a])
    (hrange : rangeFault Config.default s (mk (s.codeByte 1)) = (if p then some x else none).or (pastTop s 2)) :
    step s =
      if s.pc.toNat = 255 then faultsAt256 s
      else if 7 < (s.codeByte 1).toNat then faultsWith s (.invalidRegisterIndex (s.codeByte 1))
      else if p then faultsWith s (.outOfRangeAddress x)
      else if s.pc.toNat = 254 then faultsAt256 s
      else .next (completed Config.default s (mk (s.codeByte 1))) := by
  rw [step_one hs hop hm]
  split
  · rfl
  · rw [← execWith_default, execWith_eq, answer_instrFault_oneReg (h := hregs _), hrange, answer_range_or, pastTop,
      answer_range, pastTop_guard_of_le (last := 254) rfl (by omega)]
    rfl

/-- A step known as a chain of faults, stated fault by fault: the first, and what holds once it is ruled out. -/
theorem ite_eq_of_eq_ite {α : Type} {o a b : α} {p q : Prop} [Decidable p] (h : o = if p then a else b)
    (hq : ¬p → o = b → q) : if p then o = a else q := by
  split
  case isTrue hp => exact h.trans (if_pos hp)
  case isFalse hp => exact hq hp (h.trans (if_neg hp))

/-! ### Operand 7 -/

/-- Among the good register operands, the byte 7 alone names the stack pointer (spec/10_state.md R12). -/
theorem regOf_eq_seven_iff {a : Byte} (ha : a.toNat ≤ 7) : regOf a = 7 ↔ a = 7#8 := by
  rw [← regOf_eq ha, Fin.ext_iff]
  exact BitVec.toNat_inj (y := 7#8)

/-- The byte that PUSH stores: the operand register as the decrement left it (R100, R101). -/
def pushedByte (s : State) (a : Byte) : Byte :=
  if a = 7#8 then BitVec.ofNat 8 ((s.getReg spReg).toNat - 1) else s.getReg (regOf a)

/-- The state after POP's load, before its increment (R102). -/
def loaded (s : State) (a : Byte) : State := s.setReg (regOf a) (s.mem.read (s.getReg spReg).toNat)

/-- The stack pointer after POP's load is the loaded byte for operand 7, and else the old one (R100). -/
theorem getReg_loaded_sp {a : Byte} (ha : a.toNat ≤ 7) (s : State) :
    (loaded s a).getReg spReg = if a = 7#8 then s.mem.read (s.getReg spReg).toNat else s.getReg spReg := by
  rw [loaded, getReg_setReg]
  exact if_congr (regOf_eq_seven_iff ha) rfl rfl

/-! ### PUSH -/

/-- The addresses PUSH comes to (R101): the pointer less 1, then its successor. -/
theorem rangeFault_push (c : Config) (s : State) (a : Byte) :
    rangeFault c s (.push a) = (if (s.getReg spReg).toNat = 0 then some (-1) else none).or (pastTop s 2) := rfl

/-- Where PUSH completes (R101): the pointer above 0, the successor an address. -/
theorem exec_push_completes {s : State} {a : Byte} (ha : a.toNat ≤ 7) (hsp : 1 ≤ (s.getReg spReg).toNat)
    (hpc : s.pc.toNat ≤ 253) : exec (.push a) s = .next (completed Config.default s (.push a)) :=
  exec_stack_completes rfl (rangeFault_push _ s a) ha (by omega) hpc

/-- A completed PUSH has stored `pushedByte` in the cell below the old stack pointer (R101). -/
theorem stored_pushedByte {s : State} (c : Config) {a : Byte} (hwf : s.mem.wf = true) (ha : a.toNat ≤ 7) :
    Stored s (completed c s (.push a)) ((s.getReg spReg).toNat - 1) (pushedByte s a) := by
  refine stored_of_mem_eq_write hwf (by omega) ?_
  rw [completed, if_congr (regOf_eq_seven_iff ha) rfl rfl]
  rfl

/-- Settles O19: PUSH completes with its byte stored, or the whole step stops at the first of its faults. -/
theorem pushStoresBelowTheStackPointer : Obligations.PushStoresBelowTheStackPointer := by
  refine ⟨fun a s hwf ha hsp hpc => ?completes, fun s hwf hs hop => ?wholeStep⟩
  case completes => exact ⟨_, exec_push_completes ha hsp hpc, rfl, stored_pushedByte _ hwf ha⟩
  case wholeStep =>
    have whole := step_stack hs hop (fun _ => rfl) (fun _ => rfl) (rangeFault_push _ s _)
    refine ite_eq_of_eq_ite whole fun _ noFetchFault => ite_eq_of_eq_ite noFetchFault fun ha goodReg =>
      ite_eq_of_eq_ite goodReg fun _ spInRange => ite_eq_of_eq_ite spInRange fun _ completes => ?_
    exact ⟨_, completes, rfl, stored_pushedByte _ hwf (Nat.le_of_not_lt ha)⟩

/-! ### POP -/

/-- The addresses POP comes to (R102): the pointer after the load plus 1, then its successor. -/
theorem rangeFault_pop (c : Config) (s : State) (a : Byte) :
    rangeFault c s (.pop a) =
      (if ((loaded s a).getReg spReg).toNat = 255 then some 256 else none).or (pastTop s 2) := rfl

/-- Where POP completes (R102): the pointer after the load below 255, the successor an address. -/
theorem exec_pop_completes {s : State} {a : Byte} (ha : a.toNat ≤ 7) (hsp : ((loaded s a).getReg spReg).toNat ≤ 254)
    (hpc : s.pc.toNat ≤ 253) : exec (.pop a) s = .next (completed Config.default s (.pop a)) :=
  exec_stack_completes rfl (rangeFault_pop _ s a) ha (by omega) hpc

/-- The registers and `pc` of a completed POP, with the pointer after the load spelled out. -/
theorem completed_pop_eq (c : Config) {a : Byte} (ha : a.toNat ≤ 7) (s : State) :
    completed c s (.pop a) = { s with
      x := (s.x.set (regOf a) (s.mem.read s.x[7].toNat)).set 7
        (BitVec.ofNat 8 ((if a = 7#8 then s.mem.read s.x[7].toNat else s.x[7]).toNat + 1)),
      pc := BitVec.ofNat 8 (s.pc.toNat + 2) } := by
  have pointer : (loaded s a).getReg spReg = if a = 7#8 then s.mem.read s.x[7].toNat else s.x[7] :=
    getReg_loaded_sp ha s
  rw [← pointer]
  rfl

/-- Settles O20: POP completes, or the whole step stops at the first of its faults. -/
theorem popLoadsFromTheStackPointer : Obligations.PopLoadsFromTheStackPointer := by
  refine ⟨fun a s ha hpc hsp => ?completes, fun s hs hop => ?wholeStep⟩
  case completes =>
    rw [exec_pop_completes ha ((getReg_loaded_sp ha s).symm ▸ hsp) hpc, completed_pop_eq _ ha]
  case wholeStep =>
    rw [step_stack hs hop (fun _ => rfl) (fun _ => rfl) (rangeFault_pop _ s _)]
    split
    · rfl
    · split
      · rfl
      · have ha : (s.codeByte 1).toNat ≤ 7 := by omega
        rw [getReg_loaded_sp ha, completed_pop_eq _ ha]
        rfl

/-! ### The pair -/

/-- A completed PUSH leaves the stack pointer 1 lower (R101). -/
theorem getReg_completed_push_sp (c : Config) (s : State) (a : Byte) :
    (completed c s (.push a)).getReg spReg = BitVec.ofNat 8 ((s.getReg spReg).toNat - 1) :=
  getReg_setReg_same s spReg _

/-- That pointer as an address, the subtraction being no wrap-around. -/
theorem toNat_getReg_completed_push_sp (c : Config) (s : State) (a : Byte) :
    ((completed c s (.push a)).getReg spReg).toNat = (s.getReg spReg).toNat - 1 := by
  rw [getReg_completed_push_sp, BitVec.toNat_ofNat, Nat.mod_eq_of_lt (by omega)]

/-- The load of a matching POP leaves the stack pointer where the PUSH left it, whichever the operand (R103). -/
theorem getReg_loaded_sp_of_pushed {c : Config} {s u : State} {a : Byte} (ha : a.toNat ≤ 7)
    (hsp : u.getReg spReg = (completed c s (.push a)).getReg spReg)
    (hbyte : u.mem.read (u.getReg spReg).toNat = pushedByte s a) :
    (loaded u a).getReg spReg = (completed c s (.push a)).getReg spReg := by
  rw [getReg_loaded_sp ha, hbyte, pushedByte, hsp, getReg_completed_push_sp]
  split <;> rfl

/-- The registers after a POP: the stack pointer is that after the load plus 1, another register as the load left it. -/
theorem getReg_completed_pop (c : Config) (s : State) (a : Byte) (r : RegNum) :
    (completed c s (.pop a)).getReg r =
      if spReg = r then BitVec.ofNat 8 (((loaded s a).getReg spReg).toNat + 1) else (loaded s a).getReg r :=
  getReg_setReg (loaded s a) spReg r _

/-- Settles O27: the POP's increment starts where the PUSH left the pointer and so ends at the old pointer, which for
operand 7 is the register to restore; any other register got the pushed byte, its old value, by the load. -/
theorem pushThenPopRestores : Obligations.PushThenPopRestores := by
  intro a s u hwf ha hs hpcs hpcu
  replace hs : 1 ≤ (s.getReg spReg).toNat := hs
  let t := completed Config.default s (.push a)
  refine ⟨t, exec_push_completes ha hs hpcs, fun (hsp : u.getReg spReg = t.getReg spReg)
    (hbyte : u.mem.read (t.getReg spReg).toNat = t.mem.read (t.getReg spReg).toNat) => ?_⟩
  have below : (t.getReg spReg).toNat = (s.getReg spReg).toNat - 1 := toNat_getReg_completed_push_sp _ s a
  have byte : u.mem.read (u.getReg spReg).toNat = pushedByte s a := by
    rw [hsp, hbyte, below, (stored_pushedByte _ hwf ha).read_same]
  have pointer : (loaded u a).getReg spReg = t.getReg spReg := getReg_loaded_sp_of_pushed ha hsp byte
  have restored : BitVec.ofNat 8 (((loaded u a).getReg spReg).toNat + 1) = s.getReg spReg := by
    rw [pointer, below, Nat.sub_add_cancel hs, BitVec.ofNat_toNat, BitVec.setWidth_eq]
  have inRange : ((loaded u a).getReg spReg).toNat ≤ 254 := by
    rw [pointer, below]
    omega
  refine ⟨_, exec_pop_completes ha inRange hpcu, ?register, ?stackPointer⟩
  case register =>
    refine (getReg_completed_pop _ u a (regOf a)).trans ?_
    split
    case isTrue h => exact restored.trans (congrArg s.getReg h)
    case isFalse h =>
      have notSeven : a ≠ 7#8 := fun h7 => h ((regOf_eq_seven_iff ha).mpr h7).symm
      rw [loaded, getReg_setReg_same, byte, pushedByte, if_neg notSeven]
      rfl
  case stackPointer => exact (getReg_completed_pop _ u a spReg).trans ((if_pos rfl).trans restored)

end Sys2Proof.Machine
end

section
/-!
SUPPORT and PROOFS. The family 45_control.md. CALL comes to the same two addresses as PUSH, so the rules for the stack forms
give where it completes and its whole step. JMP, JEQ and JNE are one meaning, `jumpIf`, under three conditions, so its rules
settle all three. RET undoes CALL: it increments the pointer the CALL left and jumps to the byte stored there.
-/

namespace Sys2Proof.Machine

/-! ### CALL -/

/-- The addresses CALL comes to (spec/45_control.md R111): the pointer less 1, then the return address. -/
theorem rangeFault_call (c : Config) (s : State) (a : Byte) :
    rangeFault c s (.call a) = (if (s.getReg spReg).toNat = 0 then some (-1) else none).or (pastTop s 2) := rfl

/-- Where CALL completes (R111): the pointer above 0, the return address a byte. -/
theorem exec_call_completes {s : State} {a : Byte} (ha : a.toNat ≤ 7) (hsp : 1 ≤ (s.getReg spReg).toNat)
    (hpc : s.pc.toNat ≤ 253) : exec (.call a) s = .next (completed Config.default s (.call a)) :=
  exec_stack_completes rfl (rangeFault_call _ s a) ha (by omega) hpc

/-- A completed CALL, its memory aside: the pointer 1 lower, and `pc` the operand register as the decrement left it. -/
theorem completed_call_eq (c : Config) {a : Byte} (ha : a.toNat ≤ 7) (s : State) :
    completed c s (.call a) = { s with
      x := s.x.set 7 (BitVec.ofNat 8 (s.x[7].toNat - 1)), mem := (completed c s (.call a)).mem,
      pc := if a = 7#8 then BitVec.ofNat 8 (s.x[7].toNat - 1) else s.x[regOf a] } := by
  rw [completed, if_congr (regOf_eq_seven_iff ha) rfl rfl]
  rfl

/-- A completed CALL has stored the return address in the cell below the old stack pointer (R111). -/
theorem stored_returnAddress {s : State} (c : Config) (a : Byte) (hwf : s.mem.wf = true) :
    Stored s (completed c s (.call a)) ((s.getReg spReg).toNat - 1) (pcPlus s 2) :=
  stored_of_mem_eq_write hwf (by omega) rfl

/-- Settles O21: CALL completes with the return address stored, or the whole step stops at the first of its faults. -/
theorem callSavesTheReturnAddress : Obligations.CallSavesTheReturnAddress := by
  refine ⟨fun a s hwf ha hsp hpc => ?completes, fun s hwf hs hop => ?wholeStep⟩
  case completes =>
    exact ⟨_, exec_call_completes ha hsp hpc, completed_call_eq _ ha s, stored_returnAddress _ a hwf⟩
  case wholeStep =>
    have whole := step_stack hs hop (fun _ => rfl) (fun _ => rfl) (rangeFault_call _ s _)
    refine ite_eq_of_eq_ite whole fun _ noFetchFault => ite_eq_of_eq_ite noFetchFault fun ha goodReg =>
      ite_eq_of_eq_ite goodReg fun _ spInRange => ite_eq_of_eq_ite spInRange fun _ completes => ?_
    exact ⟨_, completes, completed_call_eq _ (Nat.le_of_not_lt ha) s, stored_returnAddress _ _ hwf⟩

/-! ### RET -/

/-- RET at every `pc`: the increment of the stack pointer alone decides between address 256 and the return (R112). -/
theorem exec_ret_eq (s : State) :
    exec .ret s =
      if (s.getReg spReg).toNat = 255 then faultsAt256 s else .next (completed Config.default s .ret) :=
  execRet_eq s

/-- Where RET completes (R112): the stack pointer below 255. -/
theorem exec_ret_completes {s : State} (hsp : (s.getReg spReg).toNat ≤ 254) :
    exec .ret s = .next (completed Config.default s .ret) :=
  (exec_ret_eq s).trans (if_neg (by omega))

/-- Settles O22: `exec_ret_eq`, below pointer 255 and after the fetch. -/
theorem retReturnsToTheSavedAddress : Obligations.RetReturnsToTheSavedAddress :=
  ⟨fun _ hsp => exec_ret_completes hsp, fun s hs hop => (step_none hs hop fun _ => rfl).trans (exec_ret_eq s)⟩

/-! ### The jumps -/

/-- A jump under a condition: the register operand is checked first, taken or not; a jump that is not taken falls through
two bytes (spec/45_control.md R113 to R115). -/
def jumpIf (taken : Prop) [Decidable taken] (a : Byte) (s : State) : Host.Outcome State Fault Refusal :=
  if 7 < a.toNat then faultsWith s (.invalidRegisterIndex a)
  else if taken then .next { s with pc := s.getReg (regOf a) }
  else if 255 < s.pc.toNat + 2 then .next (raise s (.outOfRangeAddress ((s.pc.toNat + 2 : Nat) : Int)))
  else .next { s with pc := pcPlus s 2 }

/-- JMP is the jump that is always taken (R113). -/
theorem exec_jmp_eq (a : Byte) (s : State) : exec (.jmp a) s = jumpIf True a s := execJmp_eq a s

/-- JEQ is the jump under bit E set (R114). -/
theorem exec_jeq_eq (a : Byte) (s : State) : exec (.jeq a) s = jumpIf (s.flagE Config.default = true) a s :=
  execJeqWith_eq a s _

/-- JNE is the jump under bit E clear (R115). -/
theorem exec_jne_eq (a : Byte) (s : State) : exec (.jne a) s = jumpIf (s.flagE Config.default = false) a s := by
  refine (execJneWith_eq a s _).trans ?_
  rw [jumpIf]
  cases s.flagE Config.default <;> rfl

section
variable {taken : Prop} [Decidable taken] {a : Byte} {s : State}

/-- A jump that is taken completes at every `pc` (R110). -/
theorem jumpIf_of_taken (ha : a.toNat ≤ 7) (h : taken) :
    jumpIf taken a s = .next { s with pc := s.getReg (regOf a) } := by
  rw [jumpIf, if_neg (by omega), if_pos h]

/-- A jump that is not taken completes where its successor exists (R15). -/
theorem jumpIf_of_not_taken (ha : a.toNat ≤ 7) (h : ¬taken) (hpc : s.pc.toNat ≤ 253) :
    jumpIf taken a s = .next { s with pc := pcPlus s 2 } := by
  rw [jumpIf, if_neg (by omega), if_neg h, if_neg (by omega)]

/-- The whole step of a jump: the fetch, the register operand, and the fall-through only where it is not taken (R145). -/
theorem step_jumpIf {m : Mnemonic} {mk : Byte → Instr} (hs : s.status = .running)
    (hop : s.codeByte 0 = Config.default.opc m) (hm : ∀ byteAt, decodeOperands byteAt m = oneOperand byteAt mk)
    (hexec : ∀ b, exec (mk b) s = jumpIf taken b s) :
    step s =
      if s.pc.toNat = 255 then faultsAt256 s
      else if 7 < (s.codeByte 1).toNat then faultsWith s (.invalidRegisterIndex (s.codeByte 1))
      else if taken then .next { s with pc := s.getReg (regOf (s.codeByte 1)) }
      else if s.pc.toNat = 254 then faultsAt256 s
      else .next { s with pc := pcPlus s 2 } := by
  rw [step_one hs hop hm]
  split
  · rfl
  · rw [hexec, jumpIf, pastTop_guard_of_le (last := 254) rfl (by omega)]

end

/-- Settles O23: JMP is the jump that is always taken, so it never falls through. -/
theorem jmpGoesToTheRegister : Obligations.JmpGoesToTheRegister :=
  ⟨fun a s ha => (exec_jmp_eq a s).trans (jumpIf_of_taken ha trivial),
    fun s hs hop => step_jumpIf hs hop (fun _ => rfl) fun b => exec_jmp_eq b s⟩

/-- Settles O24: JEQ is the jump under bit E set. -/
theorem jeqJumpsExactlyWhenEqual : Obligations.JeqJumpsExactlyWhenEqual :=
  ⟨fun a s ha hE => (exec_jeq_eq a s).trans (jumpIf_of_taken ha hE),
    fun a s ha hE hpc => (exec_jeq_eq a s).trans (jumpIf_of_not_taken ha (ne_true_of_eq_false hE) hpc),
    fun s hs hop => step_jumpIf hs hop (fun _ => rfl) fun b => exec_jeq_eq b s⟩

/-- Settles O25: JNE is the jump under bit E clear. -/
theorem jneJumpsExactlyWhenNotEqual : Obligations.JneJumpsExactlyWhenNotEqual :=
  ⟨fun a s ha hE => (exec_jne_eq a s).trans (jumpIf_of_taken ha hE),
    fun a s ha hE hpc => (exec_jne_eq a s).trans (jumpIf_of_not_taken ha (ne_false_of_eq_true hE) hpc),
    fun s hs hop => step_jumpIf hs hop (fun _ => rfl) fun b => exec_jne_eq b s⟩

/-! ### The pair -/

/-- A completed CALL leaves the registers as a completed PUSH does (R101, R111). -/
theorem completed_call_x (c : Config) (s : State) (a : Byte) :
    (completed c s (.call a)).x = (completed c s (.push a)).x := rfl

/-- A completed CALL leaves the stack pointer 1 lower, the subtraction being no wrap-around. -/
theorem toNat_getReg_completed_call_sp (c : Config) (s : State) (a : Byte) :
    ((completed c s (.call a)).getReg spReg).toNat = (s.getReg spReg).toNat - 1 := by
  rw [getReg_congr (completed_call_x c s a), toNat_getReg_completed_push_sp]

/-- A completed RET leaves the stack pointer 1 higher (R112). -/
theorem getReg_completed_ret_sp (c : Config) (s : State) :
    (completed c s .ret).getReg spReg = BitVec.ofNat 8 ((s.getReg spReg).toNat + 1) :=
  getReg_setReg_same s spReg _

/-- Settles O28: the RET starts at the pointer the CALL left, 1 below the old one, where the return address stands. -/
theorem callThenRetReturns : Obligations.CallThenRetReturns := by
  intro a s u hwf ha hs hpc
  replace hs : 1 ≤ (s.getReg spReg).toNat := hs
  let t := completed Config.default s (.call a)
  refine ⟨t, exec_call_completes ha hs hpc, fun (hsp : u.getReg spReg = t.getReg spReg)
    (hbyte : u.mem.read (t.getReg spReg).toNat = t.mem.read (t.getReg spReg).toNat) => ?_⟩
  have below : (t.getReg spReg).toNat = (s.getReg spReg).toNat - 1 := toNat_getReg_completed_call_sp _ s a
  have saved : u.mem.read (u.getReg spReg).toNat = pcPlus s 2 := by
    rw [hsp, hbyte, below, (stored_returnAddress _ a hwf).read_same]
  have inRange : (u.getReg spReg).toNat ≤ 254 := by
    rw [hsp, below]
    omega
  refine ⟨_, exec_ret_completes inRange, ?returns, ?stackPointer⟩
  case returns => exact (congrArg BitVec.toNat saved).trans (toNat_pcPlus (by omega))
  case stackPointer =>
    refine (getReg_completed_ret_sp _ u).trans ?_
    rw [hsp, below, Nat.sub_add_cancel hs, BitVec.ofNat_toNat, BitVec.setWidth_eq]
    rfl

end Sys2Proof.Machine
end

section
/-!
SUPPORT and PROOFS. The family 50_interfaces.md. The status port is read off the status and the fault register. Every byte,
and the two addresses -1 and 256, lie within ten bits of two's complement, so `errInfo` loses nothing of a legal fault.
-/

namespace Sys2Proof.Machine

/-! ### What each signal shows -/

theorem ports_running {s : State} : s.ports.running = true ↔ s.run = true ∧ s.err = none :=
  beq_iff_eq.trans status_running

theorem ports_halted {s : State} : s.ports.halted = true ↔ s.run = false ∧ s.err = none :=
  beq_iff_eq.trans status_halted

theorem ports_faulted {s : State} : s.ports.faulted = true ↔ s.err ≠ none :=
  beq_iff_eq.trans status_faulted

/-- The code 0 is that of no fault alone (spec/60_exceptions.md R143). -/
theorem errCode_eq_zero {e : Option FaultValue} : errCode e = 0#2 ↔ e = none := by
  cases e with
  | none => exact iff_of_true rfl rfl
  | some f => cases f <;> simp [errCode]

theorem ports_errCode_of_err {s : State} {f : FaultValue} (h : s.err = some f) :
    s.ports.errCode = errCode (some f) :=
  congrArg errCode h

theorem ports_errInfo_of_err {s : State} {f : FaultValue} (h : s.err = some f) :
    s.ports.errInfo = BitVec.ofInt 10 f.info := by
  simp only [State.ports, h]

/-! ### What ten bits hold -/

/-- The information value fits in the port's ten bits of two's complement (spec/50_interfaces.md R129). -/
def FaultValue.InfoFits (f : FaultValue) : Prop := -512 ≤ f.info ∧ f.info < 512

theorem infoFits_of_info_eq_byte {f : FaultValue} {v : Byte} (h : f.info = v.toNat) : f.InfoFits := by
  have hv : v.toNat < 256 := v.isLt
  unfold FaultValue.InfoFits
  omega

/-- A legal fault carries a byte, or one of the addresses -1 and 256 (R19). -/
theorem FaultValue.Legal.infoFits {c : Config} {f : FaultValue} (h : f.Legal c) : f.InfoFits := by
  cases f with
  | unknownInstruction op => exact infoFits_of_info_eq_byte rfl
  | invalidRegisterIndex v => exact infoFits_of_info_eq_byte rfl
  | outOfRangeAddress t =>
    obtain rfl | rfl : t = -1 ∨ t = 256 := h
    · exact ⟨by decide, by decide⟩
    · exact ⟨by decide, by decide⟩

theorem toInt_ports_errInfo {s : State} {f : FaultValue} (h : s.err = some f) (hf : f.InfoFits) :
    s.ports.errInfo.toInt = f.info := by
  rw [ports_errInfo_of_err h]
  exact BitVec.toInt_ofInt_eq_self (by decide) hf.1 hf.2

/-- Settles O44: the signals one by one; `errInfo` is exact because the information value fits. -/
theorem portsShowTheStatusAndTheFault : Obligations.PortsShowTheStatusAndTheFault := fun _ =>
  ⟨ports_running, ports_halted, ports_faulted, errCode_eq_zero,
    fun _ h hf => toInt_ports_errInfo h hf.infoFits,
    fun _ h => ⟨ports_errCode_of_err h, toInt_ports_errInfo h (infoFits_of_info_eq_byte rfl)⟩,
    fun _ h => ports_errCode_of_err h,
    fun _ h => ⟨ports_errCode_of_err h, toInt_ports_errInfo h (infoFits_of_info_eq_byte rfl)⟩⟩

end Sys2Proof.Machine
end

section
/-!
SUPPORT and PROOFS. The family 60_exceptions.md. `UnknownInstruction` comes from the fetch stage alone: the execute stage
raises the other two faults. The execute stage does not read `ERR`, so with any value there it raises the same fault, which
replaces that value, or completes in the same state but for `ERR`.
-/

namespace Sys2Proof.Machine

/-! ### Who raises `UnknownInstruction` -/

/-- The fetch stage raises `UnknownInstruction` of the opcode byte, exactly where it is none of the thirteen (R141). -/
theorem fetch_unknownInstruction_iff {c : Config} {s : State} {op : Byte} (hc : c.Valid) :
    fetch c s = .error (.unknownInstruction op) ↔ op = s.codeByte 0 ∧ ∀ m, c.opc m ≠ s.codeByte 0 := by
  constructor
  · intro h
    obtain ⟨hop, hf⟩ | ⟨-, hf⟩ | ⟨i, hf, -⟩ := fetch_cases s hc.1
    · obtain rfl := FaultValue.unknownInstruction.inj (Except.error.inj (hf.symm.trans h))
      exact ⟨rfl, hop⟩
    · exact nomatch hf.symm.trans h
    · exact nomatch hf.symm.trans h
  · rintro ⟨rfl, hop⟩
    exact fetch_unknown hop

/-- The execute stage raises `InvalidRegisterIndex` and `OutOfRangeAddress` only (R142, R143). -/
theorem instrFault_ne_unknownInstruction (c : Config) (s : State) (i : Instr) (op : Byte) :
    instrFault c s i ≠ some (.unknownInstruction op) := by
  intro h
  obtain hreg | ⟨-, hrange⟩ := Option.or_eq_some_iff.mp h
  · obtain ⟨v, -, hv⟩ := Option.map_eq_some_iff.mp hreg
    exact nomatch hv
  · obtain ⟨t, -, ht⟩ := Option.map_eq_some_iff.mp hrange
    exact nomatch ht

/-- A step raises `UnknownInstruction` of the opcode byte, exactly where it is none of the thirteen (R141). -/
theorem raises_unknownInstruction_iff {c : Config} {s : State} {op : Byte} (hc : c.Valid) :
    Raises c s (.unknownInstruction op) ↔ op = s.codeByte 0 ∧ ∀ m, c.opc m ≠ s.codeByte 0 := by
  rw [← fetch_unknownInstruction_iff hc]
  constructor
  · rintro (hf | ⟨i, -, hi⟩)
    · exact hf
    · exact absurd hi (instrFault_ne_unknownInstruction c s i op)
  · exact .inl

/-- Settles O8: a step that leaves a fault raised it, since it started with none. -/
theorem unknownOpcodeByteFaults : Obligations.UnknownOpcodeByteFaults := by
  intro s hs
  refine ⟨fun hop => ?_, fun t op h herr => ?_⟩
  · rw [← stepWith_default]
    exact stepWith_of_raises hs ((raises_unknownInstruction_iff Config.default_valid).mpr ⟨rfl, hop⟩)
  · obtain ⟨-, ⟨f, hf, rfl⟩ | ⟨i, -, rfl⟩⟩ := step_raises_or_completes h
    · obtain rfl : f = .unknownInstruction op := Option.some.inj herr
      exact (raises_unknownInstruction_iff Config.default_valid).mp hf
    · rw [completed_err, (status_running.mp hs).2] at herr
      exact nomatch herr

/-! ### `ERR` is not read -/

/-- A completed instruction keeps whatever is in `ERR`, and nothing else it does depends on it (R147). -/
theorem completed_with_err (c : Config) (s : State) (e : Option FaultValue) (i : Instr) :
    completed c { s with err := e } i = { completed c s i with err := e } := by
  cases i <;> rfl

/-- The execute stage of the default machine: its fault, or the state it completes in. -/
theorem exec_eq_answer (i : Instr) (s : State) :
    exec i s = answer s (instrFault Config.default s i) (completed Config.default s i) := by
  rw [← execWith_default, execWith_eq]

/-- With `e` in `ERR` the execute stage raises the fault it raises with none there, or completes in the same state but for
`ERR` (R147). -/
theorem exec_with_err (i : Instr) (s : State) (e : Option FaultValue) :
    exec i { s with err := e } =
      answer s (instrFault Config.default s i) { completed Config.default s i with err := e } := by
  have sameFault : instrFault Config.default { s with err := e } i = instrFault Config.default s i :=
    instrFault_congr rfl rfl rfl rfl i
  rw [exec_eq_answer, sameFault, completed_with_err]
  cases instrFault Config.default s i <;> rfl

/-- Settles O12: no step exists outside status Running, and the execute stage does not read `ERR`. -/
theorem noReturnFromAFault : Obligations.NoReturnFromAFault := by
  refine ⟨fun s t hs hreach => hreach.eq_of_not_running ?_, fun i s t e herr h => ?_⟩
  · obtain hs | hs := hs <;> simp [hs]
  · rw [exec_eq_answer] at h
    obtain rfl := Host.Outcome.next.inj h
    rw [exec_with_err]
    cases instrFault Config.default s i with
    | some f => rfl
    | none => simp [answer, herr]

end Sys2Proof.Machine
end

section
/-!
SUPPORT and PROOFS. The family 70_reset_and_hazards.md, and the faults that no single instruction's statement covers. A
fetched instruction lies below address 256 and a fault of an execute stage started without one is the instruction's own, so
each fault statement is read off the fetch stage or off `instrFault`. The Loader is one rule for what it leaves in memory and
one for the image that does not fit.
-/

namespace Sys2Proof.Machine

/-! ### What a step leaves in `ERR` -/

/-- Started without a fault, the execute stage leaves in `ERR` the fault the instruction raises, if any (R144, R147). -/
theorem err_of_exec {i : Instr} {s t : State} (herr : s.err = none) (h : exec i s = .next t) :
    t.err = instrFault Config.default s i := by
  rw [exec_eq_answer] at h
  obtain rfl := Host.Outcome.next.inj h
  cases instrFault Config.default s i with
  | some f => rfl
  | none => exact (completed_err Config.default s i).trans herr

/-- Settles O11: a step that completes an instruction leaves no fault, and one that raises a fault writes `ERR` alone. -/
theorem faultWritesErrOnly : Obligations.FaultWritesErrOnly := by
  intro s t h hfault
  obtain ⟨hs, ⟨f, -, rfl⟩ | ⟨i, -, rfl⟩⟩ := step_raises_or_completes h
  · rfl
  · exact absurd ((completed_err Config.default s i).trans (status_running.mp hs).2) hfault

/-! ### Operand bytes past address 255 -/

/-- The fetch stage presents address 256 where the instruction of the opcode byte does not end below it (R72). -/
theorem fetch_past_top {c : Config} {s : State} {m : Mnemonic} (hc : c.Valid) (hop : s.codeByte 0 = c.opc m)
    (htop : 256 < s.pc.toNat + m.length) : fetch c s = .error (.outOfRangeAddress 256) := by
  obtain ⟨hunknown, -⟩ | ⟨-, hf⟩ | ⟨i, hf, hi, -⟩ := fetch_cases s hc.1
  · exact absurd hop.symm (hunknown m)
  · exact hf
  · obtain rfl : i.mnemonic = m := hc.1 _ _ (hi.symm.trans hop)
    exact absurd (fits_of_fetch_ok hf) (Nat.not_le.mpr htop)

/-- Settles O9: the fetch stage raises the fault, and the step raises what the fetch stage raises. -/
theorem operandFetchPastTheTopFaults : Obligations.OperandFetchPastTheTopFaults :=
  fun _ _ hs hop htop => cycle_of_fetch_error hs (fetch_past_top Config.default_valid hop htop)

/-! ### Register operand bytes above 7 -/

/-- No register operand is bad exactly in a well-formed instruction (spec/30_encoding.md R55). -/
theorem firstBadReg_eq_none_iff {i : Instr} : i.firstBadReg = none ↔ i.wellFormed = true := by
  simp [Instr.firstBadReg, Instr.wellFormed]

/-- An instruction raises `InvalidRegisterIndex` of its first bad register operand and of no other byte (R73, R145). -/
theorem instrFault_eq_invalidRegisterIndex_iff {c : Config} {s : State} {i : Instr} {v : Byte} :
    instrFault c s i = some (.invalidRegisterIndex v) ↔ i.firstBadReg = some v := by
  simp [instrFault]

/-- Settles O10: the bad register operand comes before every other fault of the instruction, and is the only source of
`InvalidRegisterIndex`. -/
theorem badRegisterOperandFaults : Obligations.BadRegisterOperandFaults := by
  refine ⟨fun i s v hbad => ?raises, fun i s t v hwf herr h hfault => ?neverRaises⟩
  case raises =>
    rw [exec_eq_answer, instrFault_eq_invalidRegisterIndex_iff.mpr hbad]
    rfl
  case neverRaises =>
    have hbad : i.firstBadReg = some v :=
      instrFault_eq_invalidRegisterIndex_iff.mp ((err_of_exec herr h).symm.trans hfault)
    exact nomatch (firstBadReg_eq_none_iff.mpr hwf).symm.trans hbad

/-! ### Reset and the loaded image -/

/-- Settles O36: reset has the invariant under every configuration. -/
theorem invariantAtReset : Obligations.InvariantAtReset := inv_reset Config.default

/-- The registers at reset (R172; R5 `SP_RESET`). -/
theorem reset_getElem_x : ∀ r : RegNum, State.reset.x[r] = if r = 7 then 0xF4#8 else 0#8 := by decide

/-- The Loader stores a byte at an address that exists and goes on behind it (spec/50_interfaces.md R124). -/
theorem loadFrom_cons_of_le {a : Nat} (ha : a ≤ 255) (s : State) (v : Byte) (rest : List Byte) :
    loadFrom s a (v :: rest) = loadFrom { s with mem := s.mem.write a v } (a + 1) rest := by
  rw [loadFrom, memWrite_of_le s (by omega) (by omega)]
  rfl

/-- The Loader refuses a byte for an address that does not exist (R124). -/
theorem loadFrom_cons_of_gt {a : Nat} (ha : 255 < a) (s : State) (v : Byte) (rest : List Byte) :
    loadFrom s a (v :: rest) = none := by
  rw [loadFrom, memWrite_of_gt s (by omega)]

/-- Bytes that fit are loaded: they stand in memory from address `a` on, and nothing else is written (R124). -/
theorem loadFrom_of_fits {bytes : List Byte} {s : State} {a : Nat} (hwf : s.mem.wf = true)
    (hfit : a + bytes.length ≤ 256) :
    ∃ m : Memory, loadFrom s a bytes = some { s with mem := m } ∧ m.wf = true ∧
      ∀ b, m.read b = if a ≤ b then bytes.getD (b - a) (s.mem.read b) else s.mem.read b := by
  induction bytes generalizing s a with
  | nil => exact ⟨s.mem, rfl, hwf, fun b => by simp⟩
  | cons v rest ih =>
    rw [List.length_cons] at hfit
    rw [loadFrom_cons_of_le (by omega)]
    obtain ⟨m, hload, hm, hread⟩ := ih (s := { s with mem := s.mem.write a v }) (a := a + 1)
      (Memory.wf_write hwf (by omega) v) (by omega)
    refine ⟨m, hload, hm, fun b => ?_⟩
    rw [hread, Memory.read_write hwf]
    obtain hlt | rfl | hgt := lt_trichotomy b a
    · simp [show ¬a + 1 ≤ b by omega, show ¬a ≤ b by omega, show a ≠ b by omega]
    · simp
    · have next : b - a = (b - (a + 1)) + 1 := by omega
      simp [show a + 1 ≤ b by omega, show a ≤ b by omega, show a ≠ b by omega, next]

/-- Bytes that reach past address 255 are refused (R124, R150). -/
theorem loadFrom_eq_none {bytes : List Byte} {s : State} {a : Nat} (ha : a ≤ 256) (hlong : 256 < a + bytes.length) :
    loadFrom s a bytes = none := by
  induction bytes generalizing s a with
  | nil => exact absurd hlong (Nat.not_lt.mpr ha)
  | cons v rest ih =>
    rw [List.length_cons] at hlong
    by_cases hlast : a ≤ 255
    · rw [loadFrom_cons_of_le hlast, ih (by omega) (by omega)]
    · rw [loadFrom_cons_of_gt (by omega)]

/-- An image of bytes is loaded into the reset state from address 0 (R171). -/
theorem init_of_bytes {img : List Nat} (h : ∀ v ∈ img, v ≤ 255) :
    State.init img = loadFrom State.reset 0 (img.map (BitVec.ofNat 8)) := by
  rw [State.init, if_pos (by simpa using h)]

/-- An image with a value above 255 has no initial state (R124). -/
theorem init_of_value_gt {img : List Nat} (h : ∃ v ∈ img, 255 < v) : State.init img = none := by
  rw [State.init, if_neg (by simpa using h)]

/-- Settles O42: the image is loaded into the reset state, whose other components the Loader leaves, or is refused. -/
theorem initialStateOfAnImage : Obligations.InitialStateOfAnImage := by
  refine ⟨fun img hlen hbytes => ?loads, fun img himg => ?refused⟩
  case loads =>
    obtain ⟨m, hload, hm, hread⟩ := loadFrom_of_fits (bytes := img.map (BitVec.ofNat 8)) (a := 0) Memory.wf_reset
      (by simpa using hlen)
    have contents (a : Nat) : m.read a = BitVec.ofNat 8 (img.getD a 0) := by
      rw [hread, if_pos (Nat.zero_le a)]
      exact List.getD_map img 0 (BitVec.ofNat 8)
    exact ⟨_, (init_of_bytes hbytes).trans hload, hm, contents, reset_getElem_x, rfl, rfl, rfl, rfl, rfl⟩
  case refused =>
    by_cases hbytes : ∀ v ∈ img, v ≤ 255
    · have hlen : 256 < img.length := himg.resolve_right fun ⟨v, hv, hgt⟩ => Nat.not_le.mpr hgt (hbytes v hv)
      rw [init_of_bytes hbytes]
      exact loadFrom_eq_none (Nat.zero_le _) (by simpa using hlen)
    · exact init_of_value_gt (by simpa using hbytes)

end Sys2Proof.Machine
end
